-- ==== Sys2Proof/Word.lean ====
section
/-! DEFINITION. The words the block moves: the 64-bit command word (R60), the 32-bit datum that is a table
entry, a phase, an increment or a rate (R7, R40), and nothing smaller: no rule of the block splits a value
into bytes (R41). -/

namespace Sys2Proof

/-- A command word `w = {OPC, RSV, AUX, DATA}`, exactly 64 bits (R60, R67). -/
abbrev CommandWord := BitVec 64

/-- A 32-bit datum: `RDATA`, the sample rate, the `DATA` field (R60, R61). -/
abbrev Word := BitVec 32

/-- The bits of an IEEE 754 binary32 datum: sign `b[31]`, biased exponent `b[30:23]`, fraction `b[22:0]` (R7).
What the bits mean is in Machine/Binary32.lean. -/
abbrev F32 := BitVec 32

end Sys2Proof
end

