-- ==== Sys2Proof/Syntax.lean ====
section
/-! DEFINITION. The block's nine commands (R64), one constructor per row of spec/opcode_table.json. -/

namespace Sys2Proof

/-- A command with its operands (R62, R64). A table address and a selector are unsigned integers that the block
only compares (`AUX`, R62); a length, a rate and a binary32 value are register contents, so bits. -/
inductive Instr where
  /-- `NOP` (R92). -/
  | nop
  /-- `TBL_WR addr, value` (R80). -/
  | tblWr (addr : Nat) (value : F32)
  /-- `TBL_RD addr` (R81). -/
  | tblRd (addr : Nat)
  /-- `CONSTRUCT L, rate` (R90). -/
  | construct (len : BitVec 16) (rate : Word)
  /-- `SET_FREQ freq` (R101). -/
  | setFreq (freq : F32)
  /-- `GET_SAMPLE` (R120). -/
  | getSample
  /-- `GET_INFO sel` (R121). -/
  | getInfo (sel : Nat)
  /-- `RELEASE` (R91). -/
  | release
  /-- `PEEK sel` (R122). -/
  | peek (sel : Nat)
deriving DecidableEq, Repr

/-- The selectors of `GET_INFO` (R68, R121). -/
inductive InfoSelector where
  | channels
  | rate
  | duration
  | frameLen
deriving DecidableEq, Repr

/-- The selectors of `PEEK` (R68, R122). -/
inductive PeekSelector where
  | index
  | incr
  | rate
  | len
  | status
deriving DecidableEq, Repr

/-- The mnemonics of the opcode map (R64). -/
inductive Mnemonic where
  | NOP
  | TBL_WR
  | TBL_RD
  | CONSTRUCT
  | SET_FREQ
  | GET_SAMPLE
  | GET_INFO
  | RELEASE
  | PEEK
deriving DecidableEq, Repr

/-- The row of the opcode map a command belongs to (R64). -/
def Instr.mnemonic : Instr → Mnemonic
  | .nop => .NOP
  | .tblWr _ _ => .TBL_WR
  | .tblRd _ => .TBL_RD
  | .construct _ _ => .CONSTRUCT
  | .setFreq _ => .SET_FREQ
  | .getSample => .GET_SAMPLE
  | .getInfo _ => .GET_INFO
  | .release => .RELEASE
  | .peek _ => .PEEK

end Sys2Proof
end

