-- ==== Sys2Proof/WellFormed.lean ====
section
/-! DEFINITION. Which commands have a command word: an address and a selector must fit the 16 bits of `AUX`
(R62, R68); every other operand has its field's width by its type. -/

namespace Sys2Proof

/-- The operand fits the 16-bit `AUX` field (R62; R68: "the assembler refuses anything larger"). -/
def fitsAux (n : Nat) : Bool := decide (n < 2 ^ 16)

/-- The command can be written as a command word (R68). A selector out of a command's range, and an address at or
above `TABLE_DEPTH`, are well formed: they fail an operand check when the command runs (R65, R80). -/
def Instr.wellFormed : Instr → Bool
  | .nop => true
  | .tblWr addr _ => fitsAux addr
  | .tblRd addr => fitsAux addr
  | .construct _ _ => true
  | .setFreq _ => true
  | .getSample => true
  | .getInfo sel => fitsAux sel
  | .release => true
  | .peek sel => fitsAux sel

/-- The same check as a proposition. -/
abbrev Instr.WellFormed (i : Instr) : Prop := i.wellFormed = true

end Sys2Proof
end

