-- ==== Sys2Proof/Decode.lean ====
section
/-! DEFINITION. The command decoder, total on every 64-bit word (R63 to R67), and after it the encoder, written
from the same opcode map (R64). Decoding depends on the word alone (R63). The block decodes a whole word: no
byte order exists inside it (R41). -/

namespace Sys2Proof

/-! ### The fields of a command word (R60) -/

def opcField (w : CommandWord) : BitVec 8 := w.extractLsb' 56 8
def rsvField (w : CommandWord) : BitVec 8 := w.extractLsb' 48 8
def auxField (w : CommandWord) : BitVec 16 := w.extractLsb' 32 16
def dataField (w : CommandWord) : BitVec 32 := w.extractLsb' 0 32

/-- Why a word is no command; the block answers `ERR_ILLEGAL` to each (R63, R65, R66). -/
inductive Illegal where
  /-- `OPC` is `0x09` to `0xFF` (R65). -/
  | reservedOpcode (opc : Nat)
  /-- `RSV` is not `0x00` (R66). -/
  | reservedField
  /-- `AUX` is not zero in a command that requires it to be (R66). -/
  | nonzeroAux
  /-- `DATA` is not zero in a command that requires it to be (R66). -/
  | nonzeroData
deriving DecidableEq, Repr

/-- The command, if the must-be-zero field `AUX` is zero. -/
def needZeroAux (aux : BitVec 16) (k : Except Illegal Instr) : Except Illegal Instr :=
  if aux = 0#16 then k else .error .nonzeroAux

/-- The command, if the must-be-zero field `DATA` is zero. -/
def needZeroData (data : BitVec 32) (k : Except Illegal Instr) : Except Illegal Instr :=
  if data = 0#32 then k else .error .nonzeroData

/-- The decoder by fields: the opcode map of R64 with the must-be-zero fields of R66. -/
def decodeFields (opc : Nat) (aux : BitVec 16) (data : BitVec 32) : Except Illegal Instr :=
  match opc with
  | 0x00 => needZeroAux aux (needZeroData data (.ok .nop))
  | 0x01 => .ok (.tblWr aux.toNat data)
  | 0x02 => needZeroData data (.ok (.tblRd aux.toNat))
  | 0x03 => .ok (.construct aux data)
  | 0x04 => needZeroAux aux (.ok (.setFreq data))
  | 0x05 => needZeroAux aux (needZeroData data (.ok .getSample))
  | 0x06 => needZeroData data (.ok (.getInfo aux.toNat))
  | 0x07 => needZeroAux aux (needZeroData data (.ok .release))
  | 0x08 => needZeroData data (.ok (.peek aux.toNat))
  | _ => .error (.reservedOpcode opc)

/-- The decoder (R63): the command a word stands for, or why it stands for none. -/
def decode (w : CommandWord) : Except Illegal Instr :=
  if rsvField w = 0#8 then decodeFields (opcField w).toNat (auxField w) (dataField w)
  else .error .reservedField

/-! ### The opcode table's rows (R63, R64): the same map as match and mask -/

/-- One row of R64's second table: a word belongs to the row when `(w AND mask) = match`. -/
structure OpcodeRow where
  mnemonic : Mnemonic
  pattern : CommandWord
  mask : CommandWord
deriving DecidableEq, Repr

/-- `(w AND mask) = match` (R63). -/
abbrev OpcodeRow.Matches (r : OpcodeRow) (w : CommandWord) : Prop := w &&& r.mask = r.pattern

/-- The rows of R64, transcribed from its match and mask columns. -/
def opcodeTable : List OpcodeRow :=
  [ ⟨.NOP,        0x0000000000000000#64, 0xFFFFFFFFFFFFFFFF#64⟩,
    ⟨.TBL_WR,     0x0100000000000000#64, 0xFFFF000000000000#64⟩,
    ⟨.TBL_RD,     0x0200000000000000#64, 0xFFFF0000FFFFFFFF#64⟩,
    ⟨.CONSTRUCT,  0x0300000000000000#64, 0xFFFF000000000000#64⟩,
    ⟨.SET_FREQ,   0x0400000000000000#64, 0xFFFFFFFF00000000#64⟩,
    ⟨.GET_SAMPLE, 0x0500000000000000#64, 0xFFFFFFFFFFFFFFFF#64⟩,
    ⟨.GET_INFO,   0x0600000000000000#64, 0xFFFF0000FFFFFFFF#64⟩,
    ⟨.RELEASE,    0x0700000000000000#64, 0xFFFFFFFFFFFFFFFF#64⟩,
    ⟨.PEEK,       0x0800000000000000#64, 0xFFFF0000FFFFFFFF#64⟩ ]

/-! ### The encoder -/

/-- `{OPC, RSV, AUX, DATA}` with `RSV = 0x00` (R60, R66). -/
def assembleWord (opc : BitVec 8) (aux : BitVec 16) (data : BitVec 32) : CommandWord :=
  opc ++ 0x00#8 ++ aux ++ data

/-- The word of a command (R64, R68). An operand that does not fit `AUX` has no word: `encode` cuts it, and
`Instr.WellFormed` excludes it. -/
def encode : Instr → CommandWord
  | .nop => assembleWord 0x00#8 0#16 0#32
  | .tblWr addr value => assembleWord 0x01#8 (BitVec.ofNat 16 addr) value
  | .tblRd addr => assembleWord 0x02#8 (BitVec.ofNat 16 addr) 0#32
  | .construct len rate => assembleWord 0x03#8 len rate
  | .setFreq freq => assembleWord 0x04#8 0#16 freq
  | .getSample => assembleWord 0x05#8 0#16 0#32
  | .getInfo sel => assembleWord 0x06#8 (BitVec.ofNat 16 sel) 0#32
  | .release => assembleWord 0x07#8 0#16 0#32
  | .peek sel => assembleWord 0x08#8 (BitVec.ofNat 16 sel) 0#32

/-! ### The opcode table's numbering -/

/-- The command word whose bits are `w`, as spec/opcode_table.json numbers them: a command is one 64-bit word, so
its bit 0 is the word's least significant bit; bits above `nbits` are zero. -/
def tableWord (nbits w : Nat) : CommandWord := BitVec.ofNat 64 (w % 2 ^ nbits)

/-- The command the decoder reads from a word of the opcode table (none where it refuses). -/
def decodeTableWord (nbits w : Nat) : Option Instr := (decode (tableWord nbits w)).toOption

end Sys2Proof
end

