-- ==== Sys2Proof/Config.lean ====
section
/-! DEFINITION. What an implementation of the block fixes (the parameters of R4) and the values the spec leaves
open. `TABLE_DEPTH` and `WRAP_MODE` are the model's arguments: they are a field of State that no step writes
(notes/assumptions/1.md), so every statement holds for every choice of them. -/

namespace Sys2Proof

/-- `WRAP_MODE` (R4): how the phase is brought back into range after each pull. -/
inductive WrapMode where
  /-- The default: `wrapE`, which renormalises a negative remainder (R103). -/
  | euclidean
  /-- The reference's single floating-point modulo: `wrapF` (R104). -/
  | fmod
deriving DecidableEq, Repr

/-- The implementation parameters of R4 that a rule of the block reads. -/
structure Params where
  /-- `TABLE_DEPTH`, an integer 1..65535; it is also a 16-bit field of the STATUS word (R28). -/
  tableDepth : BitVec 16
  wrapMode : WrapMode
deriving DecidableEq, Repr

/-- `TABLE_DEPTH` is at least 1 (R4); its width bounds it by 65535. -/
abbrev Params.wf (p : Params) : Prop := p.tableDepth ≠ 0#16

/-- The defaults of R4: `TABLE_DEPTH = 64`, `WRAP_MODE = EUCLIDEAN`. -/
def Params.default : Params := { tableDepth := 64#16, wrapMode := .euclidean }

/-- `NUM_CHANNELS`, fixed at 1: monophonic (R4). -/
def Config.numChannels : Word := 1#32

/-- FREE VALUE (notes/assumptions/4.md). The payload and sign of the NaN that an invalid binary32 operation gives
for these two operands: IEEE 754, which R8 refers to, does not fix them. No run reaches one (R27, R110). -/
opaque Config.freeNaN : F32 → F32 → F32

/-- FREE VALUE (notes/assumptions/4.md). `fmod x y` where R9 does not define it: `x` not finite, or `y` not finite
or zero. No run reaches one (R27). -/
opaque Config.freeFmod : F32 → F32 → F32

end Sys2Proof
end

