-- ==== Sys2Proof/Machine/Binary32.lean ====
section
/-! DEFINITION. Binary32 values and arithmetic (R7 to R10). Every finite binary32 value is an integer multiple of
2^-149; its exact value is held as that integer, results are computed exactly and narrowed once, by
roundTiesToEven. -/

namespace Sys2Proof.Machine

/-! ### The parts of a datum and the predicates on it (R7) -/

/-- `s = b[31]`: true for a set sign bit. -/
def f32Sign (x : F32) : Bool := x.msb

/-- `e = b[30:23]`. -/
def f32Exponent (x : F32) : Nat := (x.extractLsb' 23 8).toNat

/-- `m = b[22:0]`. -/
def f32Fraction (x : F32) : Nat := (x.extractLsb' 0 23).toNat

def f32IsNaN (x : F32) : Bool := f32Exponent x == 255 && f32Fraction x != 0
def f32IsInf (x : F32) : Bool := f32Exponent x == 255 && f32Fraction x == 0
def f32IsFinite (x : F32) : Bool := f32Exponent x != 255

/-! ### Exact values -/

/-- The magnitude of a finite value, in units of 2^-149. -/
def f32Magnitude (x : F32) : Nat :=
  if f32Exponent x = 0 then f32Fraction x
  else (2 ^ 23 + f32Fraction x) * 2 ^ (f32Exponent x - 1)

/-- The exact value of a finite datum, in units of 2^-149. -/
def f32Scaled (x : F32) : Int :=
  if f32Sign x then -(f32Magnitude x : Int) else (f32Magnitude x : Int)

/-- One in units of 2^-149. -/
def f32Unit : Nat := 2 ^ 149

/-! ### Comparisons (R7) -/

/-- An integer that orders the data that are not NaN as IEEE 754 orders their values, `-0.0` level with `+0.0`. -/
def f32Key (x : F32) : Int :=
  if f32Sign x then -((x.toNat % 2 ^ 31 : Nat) : Int) else (x.toNat : Int)

/-- `x < y`, false when either is NaN. -/
def f32Lt (x y : F32) : Bool := !f32IsNaN x && !f32IsNaN y && decide (f32Key x < f32Key y)

/-- `x == y`, false when either is NaN. -/
def f32Eq (x y : F32) : Bool := !f32IsNaN x && !f32IsNaN y && decide (f32Key x = f32Key y)

/-! ### Rounding: `fl` with roundTiesToEven (R8) -/

/-- `n / d` to the nearest integer, ties to even. -/
def roundHalfEven (n d : Nat) : Nat :=
  if 2 * (n % d) < d then n / d
  else if d < 2 * (n % d) then n / d + 1
  else n / d + n / d % 2

/-- The exponent of the unit in the last place at `n / d`, in units of 2^-149: 0 for the subnormals and the lowest
binade, so that a 24-bit significand is left. -/
def quantumExponent (n d : Nat) : Nat := (n / d).log2 - 23

/-- The exponent and fraction bits of infinity. -/
def infinityBits : Nat := 0x7F800000

/-- The exponent and fraction bits of the binary32 magnitude nearest `n / d` (in units of 2^-149): a significand
`m ≤ 2^24` at exponent `k` has the bits `k * 2^23 + m`, and a value past the largest finite one is infinity. -/
def roundMagnitude (n d : Nat) : Nat :=
  let k := quantumExponent n d
  min (k * 2 ^ 23 + roundHalfEven n (d * 2 ^ k)) infinityBits

/-- A datum from its sign and its other 31 bits. -/
def f32Pack (neg : Bool) (bits : Nat) : F32 := BitVec.ofBool neg ++ BitVec.ofNat 31 bits

/-- `fl` of `± n / d`, in units of 2^-149 (R8). -/
def f32Round (neg : Bool) (n d : Nat) : F32 := f32Pack neg (roundMagnitude n d)

def f32Zero (neg : Bool) : F32 := f32Pack neg 0
def f32Infinity (neg : Bool) : F32 := f32Pack neg infinityBits

/-- `+1.0`. -/
def f32One : F32 := 0x3F800000#32

/-- The NaN an invalid operation gives: exponent and quiet bit set, every other bit free (notes/assumptions/4.md). -/
def f32NaN (x y : F32) : F32 := Config.freeNaN x y ||| 0x7FC00000#32

/-- `to_f32(n)`: the integer `n` rounded to binary32 (R8). -/
def toF32 (n : Nat) : F32 := f32Round false (n * f32Unit) 1

/-! ### Arithmetic (R8, R9, R10) -/

/-- `x ⊕ y` for finite operands: an exact zero is `-0.0` only when both operands have their sign bit set. -/
def f32AddFinite (x y : F32) : F32 :=
  let v := f32Scaled x + f32Scaled y
  if v = 0 then f32Zero (f32Sign x && f32Sign y) else f32Round (decide (v < 0)) v.natAbs 1

/-- `x ⊕ y` (R8). -/
def f32Add (x y : F32) : F32 :=
  if f32IsNaN x || f32IsNaN y then f32NaN x y
  else if f32IsInf x then (if f32IsInf y && f32Sign x != f32Sign y then f32NaN x y else x)
  else if f32IsInf y then y
  else f32AddFinite x y

/-- `-x`: the sign bit is turned over. -/
def f32Neg (x : F32) : F32 := x ^^^ 0x80000000#32

/-- `x ⊖ y` (R8): the same exact value, rounded once, as `x ⊕ -y`. -/
def f32Sub (x y : F32) : F32 := f32Add x (f32Neg y)

/-- The sign of a product or a quotient. -/
def f32SignXor (x y : F32) : Bool := f32Sign x != f32Sign y

/-- `x ⊗ y` (R8). -/
def f32Mul (x y : F32) : F32 :=
  let neg := f32SignXor x y
  if f32IsNaN x || f32IsNaN y then f32NaN x y
  else if f32IsInf x then (if f32Magnitude y = 0 then f32NaN x y else f32Infinity neg)
  else if f32IsInf y then (if f32Magnitude x = 0 then f32NaN x y else f32Infinity neg)
  else f32Round neg (f32Magnitude x * f32Magnitude y) f32Unit

/-- `x ⊘ y` (R8). -/
def f32Div (x y : F32) : F32 :=
  let neg := f32SignXor x y
  if f32IsNaN x || f32IsNaN y then f32NaN x y
  else if f32IsInf x then (if f32IsInf y then f32NaN x y else f32Infinity neg)
  else if f32IsInf y then f32Zero neg
  else if f32Magnitude y = 0 then (if f32Magnitude x = 0 then f32NaN x y else f32Infinity neg)
  else f32Round neg (f32Magnitude x * f32Unit) (f32Magnitude y)

/-- `fmod(x, y)` (R9): the exact remainder of the truncated quotient, with the sign of `x`. Where R9 does not define
it the result is free (notes/assumptions/4.md). -/
def f32Fmod (x y : F32) : F32 :=
  if f32IsFinite x && f32IsFinite y && f32Magnitude y != 0 then
    f32Round (f32Sign x) (f32Magnitude x % f32Magnitude y) 1
  else Config.freeFmod x y

/-- `floor(x)` of a finite datum, as a mathematical integer (R10). -/
def f32Floor (x : F32) : Int := f32Scaled x / (f32Unit : Int)

end Sys2Proof.Machine
end

