-- ==== Sys2Proof/Machine/State.lean ====
section
/-! DEFINITION. Everything the spec gives the block (R20 to R31), the host's side of the port (R60, R160, R161),
and the reasons a step can stop. Plain data. The table's operations are in Machine/Ops.lean. -/

namespace Sys2Proof.Machine

/-- `S.MODE`, one bit (R20). -/
inductive Mode where
  /-- 0: no oscillator is constructed and the table may be written. -/
  | idle
  /-- 1: an oscillator is constructed and its table is fixed. -/
  | active
deriving DecidableEq, Repr

/-- The status codes a command can return (R140). Codes 8 to 15 are reserved and never returned: they have no name. -/
inductive Status where
  | ok
  | errIllegal
  | errState
  | errInvalidTable
  | errInvalidRate
  | errNonfinite
  | errRange
  | errPhase
deriving DecidableEq, Repr

/-- A response `{STATUS[3:0], RDATA[31:0]}` (R61). -/
structure Response where
  status : Status
  rdata : Word
deriving DecidableEq, Repr

/-- What the host does at the port, one at a time (R5, R60, R160, R161). -/
inductive HostInput where
  /-- One transfer of a command word (R60). -/
  | command (w : CommandWord)
  /-- `rst` high at a clock edge with no command outstanding (R160). -/
  | reset
  /-- `rst` high between a command's transfer and its response: the command is aborted (R161). -/
  | resetDuring (w : CommandWord)
deriving DecidableEq, Repr

/-- One table entry that has been written: its table address and its 32 bits. The table space is word-addressed and
"no smaller unit can be addressed" (R40), so an entry is not cut into bytes (R41). -/
abbrev Entry := Nat × F32

/-- `S.TABLE` (R26): the entries written since reset, addresses strictly rising (`Memory.wf`, Machine/Ops.lean). An
address not listed holds no value: it is the model's written bit `W[a]` at false (R31). -/
abbrev Memory := List Entry

/-- The block's state (10_state.md), its parameters (R4), and the port. -/
structure State where
  /-- `S.MODE` (R20). -/
  mode : Mode
  /-- `S.FAULT`, one sticky bit (R21). -/
  fault : Bool
  /-- `S.SAMPLE_RATE`, 32-bit unsigned (R22). -/
  sampleRate : BitVec 32
  /-- `S.TABLE_LEN`, written L, 16-bit unsigned (R23). -/
  tableLen : BitVec 16
  /-- `S.INDEX`, binary32 (R24). -/
  index : F32
  /-- `S.INCR`, binary32 (R25). -/
  incr : F32
  /-- `S.TABLE` with the written bits `W` (R26, R31). -/
  table : Memory
  /-- `TABLE_DEPTH` and `WRAP_MODE` (R4), hardwired (R28): no step writes them. -/
  params : Params
  /-- MODEL'S OWN, not block state (R13): what the host will do at the port, in issue order (R46). -/
  inputs : List HostInput
  /-- MODEL'S OWN, not block state (R13): the response wires after the step, `none` while `rsp_valid` is low (R60, R61). -/
  response : Option Response
deriving DecidableEq, Repr

/-- Why a step stops. -/
inductive Fault where
  /-- `UNWRITTEN_TABLE_READ`, the spec's own model fault (R31): TBL_RD or the interpolator reads an entry that was not
  written since reset. The hardware goes on with an unspecified value. SAFE: nothing is claimed of such a run. -/
  | unwrittenTableRead
  /-- Raised by GET_SAMPLE when `S.INDEX` is not a finite value in `[0, L)`: R110 gives lerp no meaning there, and R27
  says that no run reaches it (notes/assumptions/5.md). SAFE. -/
  | phaseOutOfRange
deriving DecidableEq, Repr

/-- Why a step has no meaning. -/
inductive Refusal where
  /-- Raised by exec's arm of an instruction that is not modelled yet; no arm raises it now. SAFE. -/
  | notModelled (mnemonic : String)
deriving DecidableEq, Repr

/-- The block right after hardware reset (R160), with the default parameters (R4), nothing issued by the host and
no response on the wires. -/
def State.reset : State :=
  { mode := .idle
    fault := false
    sampleRate := 0#32
    tableLen := 0#16
    index := 0x00000000#32
    incr := 0x00000000#32
    table := []
    params := Params.default
    inputs := []
    response := none }

end Sys2Proof.Machine
end

