-- ==== Sys2Proof/Machine/Ops.lean ====
section
/-! DEFINITION. The named operations every command is written with (R11): `TableRead`, `TableWrite`, the writes of
state elements, `respond`, `raise`, `modelfault`; and hardware reset (R160). The block takes no traps and has no
return from one (R146, R147): `raise` is what stands in their place. -/

namespace Sys2Proof.Machine

/-- The outcome of one command. -/
abbrev Result := Host.Outcome State Fault Refusal

/-! ### The table space (R26, R31, R40) -/

/-- What address `a` holds; `none` when nothing was written there since reset. -/
def Memory.read : Memory → Nat → Option F32
  | [], _ => none
  | (b, v) :: rest, a => if a = b then some v else Memory.read rest a

/-- `W[a]` (R31). -/
def Memory.written (m : Memory) (a : Nat) : Bool := (Memory.read m a).isSome

/-- `TableWrite(a, v)` (R11): the entry at `a` becomes `v`, every other stays, and the addresses stay in order. -/
def Memory.write : Memory → Nat → F32 → Memory
  | [], a, v => [(a, v)]
  | (b, u) :: rest, a, v =>
    if a < b then (a, v) :: (b, u) :: rest
    else if a = b then (a, v) :: rest
    else (b, u) :: Memory.write rest a v

/-- The canonical form: addresses strictly rising. There is no further condition: an unlisted address holds no value
(R31), so no entry can equal what an unlisted address reads as. -/
abbrev Memory.wf (m : Memory) : Prop := List.Pairwise (fun p q => p.1 < q.1) m

/-- `TableRead(a)` (R11, R31): the entry, or the model fault `UNWRITTEN_TABLE_READ`. -/
def tableRead (s : State) (a : Nat) : Except Fault F32 :=
  match Memory.read s.table a with
  | some v => .ok v
  | none => .error .unwrittenTableRead

/-- The address names an entry of the table space, `0 .. TABLE_DEPTH-1` (R40, R42). -/
def inTable (s : State) (a : Nat) : Bool := decide (a < s.params.tableDepth.toNat)

/-! ### Writes of state elements (`S.<name> <- v`, R11) -/

def State.setEntry (s : State) (a : Nat) (v : F32) : State := { s with table := Memory.write s.table a v }
def State.setIndex (s : State) (x : F32) : State := { s with index := x }
def State.setIncr (s : State) (x : F32) : State := { s with incr := x }
def State.setFault (s : State) : State := { s with fault := true }
def State.setInputs (s : State) (rest : List HostInput) : State := { s with inputs := rest }
def State.setResponse (s : State) (r : Option Response) : State := { s with response := r }

/-- The oscillator's elements, written together by CONSTRUCT and RELEASE (R90, R91). The phase and the increment
become `+0.0`. -/
def State.setOscillator (s : State) (mode : Mode) (len : BitVec 16) (rate : BitVec 32) : State :=
  { s with mode := mode, tableLen := len, sampleRate := rate, index := 0x00000000#32, incr := 0x00000000#32 }

/-! ### Ending a command -/

/-- `respond(status, rdata)` (R11, R61): one response on the wires. -/
def respond (status : Status) (rdata : Word) (s : State) : Result :=
  .next (s.setResponse (some { status := status, rdata := rdata }))

/-- `raise <ERR_NAME>` (R11, R143): the response carries the code and `RDATA = 0`, and nothing else changes. -/
def raise (status : Status) (s : State) : Result := respond status 0x00000000#32 s

/-- `modelfault(<reason>)` (R11). -/
def modelFault (reason : Fault) : Result := .fault reason

/-! ### Hardware reset and the waiting block -/

/-- Hardware reset (R160): every element at its reset value and every written bit cleared. The parameters are
hardwired, the host's later inputs are the host's, and no response is given (R161). -/
def State.hardwareReset (s : State) : State :=
  { mode := .idle
    fault := false
    sampleRate := 0#32
    tableLen := 0#16
    index := 0x00000000#32
    incr := 0x00000000#32
    table := []
    params := s.params
    inputs := s.inputs
    response := none }

/-- The block with no input: it holds its state (R152), and the response of the step before is gone (R61: "presented
for one cycle"). -/
def State.wait (s : State) : State := s.setResponse none

end Sys2Proof.Machine
end

