-- ==== Sys2Proof/Machine/Operands.lean ====
section
/-! DEFINITION. What a command does with its operands: the selectors (R68, R121, R122), the operand checks of the
command rules, and the conversions of L and the rate (R100). The cutting of a word into operands is in
Sys2Proof/Decode.lean (R62). -/

namespace Sys2Proof.Machine

/-- `zext_32` of a 16-bit operand or element (R6, R62). -/
def zext32 (x : BitVec 16) : Word := x.setWidth 32

/-- A GET_INFO selector (R121); `none` is out of range. -/
def infoSelector : Nat → Option InfoSelector
  | 0 => some .channels
  | 1 => some .rate
  | 2 => some .duration
  | 3 => some .frameLen
  | _ => none

/-- A PEEK selector (R122); `none` is out of range. -/
def peekSelector : Nat → Option PeekSelector
  | 0 => some .index
  | 1 => some .incr
  | 2 => some .rate
  | 3 => some .len
  | 4 => some .status
  | _ => none

/-- `L == 0 or L > TABLE_DEPTH` is false (R90). -/
def validLength (s : State) (len : BitVec 16) : Bool :=
  decide (len ≠ 0#16) && decide (len.toNat ≤ s.params.tableDepth.toNat)

/-- `to_f32(S.TABLE_LEN)` (R100, R102). -/
def lengthF32 (len : BitVec 16) : F32 := toF32 len.toNat

/-- `to_f32(S.SAMPLE_RATE)` (R22, R100). -/
def rateF32 (rate : BitVec 32) : F32 := toF32 rate.toNat

end Sys2Proof.Machine
end

