-- ==== Sys2Proof/Machine/Lifecycle.lean ====
section
/-! DEFINITION. The oscillator's lifecycle (42_lifecycle.md): CONSTRUCT, RELEASE, NOP. -/

namespace Sys2Proof.Machine

/-- `CONSTRUCT L, rate` (R90): the mode, then the length, then the rate is checked (R142). -/
def execConstruct (len : BitVec 16) (rate : Word) (s : State) : Result :=
  if s.mode ≠ .idle then raise .errState s
  else if !validLength s len then raise .errInvalidTable s
  else if rate = 0#32 then raise .errInvalidRate s
  else respond .ok 0x00000000#32 (s.setOscillator .active len rate)

/-- `RELEASE` (R91): the oscillator's elements return to their reset values; the table and `S.FAULT` stay. -/
def execRelease (s : State) : Result :=
  if s.mode ≠ .active then raise .errState s
  else respond .ok 0x00000000#32 (s.setOscillator .idle 0#16 0#32)

/-- `NOP` (R92). -/
def execNop (s : State) : Result := respond .ok 0x00000000#32 s

end Sys2Proof.Machine
end

