-- ==== Sys2Proof/Machine/Flags.lean ====
section
/-! DEFINITION. The status codes (R140), the response as bits (R61) and the STATUS word (R28). The block has no
condition codes and no IEEE exception flags (R32). -/

namespace Sys2Proof.Machine

/-- The code of a status (R140). -/
def Status.code : Status → BitVec 4
  | .ok => 0#4
  | .errIllegal => 1#4
  | .errState => 2#4
  | .errInvalidTable => 3#4
  | .errInvalidRate => 4#4
  | .errNonfinite => 5#4
  | .errRange => 6#4
  | .errPhase => 7#4

/-- The 36 bits of a response, `{STATUS[3:0], RDATA[31:0]}` (R61, R67). -/
def Response.bits (r : Response) : BitVec 36 := r.status.code ++ r.rdata

/-- `S.MODE` as a bit (R20). -/
def Mode.bit : Mode → Bool
  | .idle => false
  | .active => true

/-- The WRAPF bit (R28). -/
def wrapfBit : WrapMode → Bool
  | .euclidean => false
  | .fmod => true

/-- The STATUS word (R28): a view of `S.MODE`, `S.FAULT` and the parameters. From the top: DEPTH `[31:16]`, zeros
`[15:3]`, WRAPF, FAULT, ACTIVE. -/
def statusWord (s : State) : Word :=
  s.params.tableDepth ++ 0#13 ++ BitVec.ofBool (wrapfBit s.params.wrapMode) ++ BitVec.ofBool s.fault
    ++ BitVec.ofBool s.mode.bit

end Sys2Proof.Machine
end

