-- ==== Sys2Proof/Machine/Interpolator.lean ====
section
/-! DEFINITION. The linear interpolator (44_linear_interpolator.md): the function GET_SAMPLE applies to the phase. -/

namespace Sys2Proof.Machine

/-- The weighted blend of two entries at phase `x` (R110): `w1 = x ⊖ to_f32(i0)`, `w0 = 1.0 ⊖ w1`,
`(w0 ⊗ t0) ⊕ (w1 ⊗ t1)`, nothing fused. -/
def blend (x : F32) (i0 : Nat) (t0 t1 : F32) : F32 :=
  let w1 := f32Sub x (toF32 i0)
  let w0 := f32Sub f32One w1
  f32Add (f32Mul w0 t0) (f32Mul w1 t1)

/-- `i0 = floor(x)`, for a phase in lerp's domain `0 ≤ x < L` (R110; `-0.0` is in it); `none` outside. -/
def lerpIndex (x : F32) (len : BitVec 16) : Option Nat :=
  if f32IsFinite x && decide (0 ≤ f32Scaled x) && decide (f32Floor x < (len.toNat : Int))
  then some (f32Floor x).toNat else none

/-- `lerp(x)` (R110): entry `i0` is read before `i1 = (i0 + 1) mod L`, and an unwritten one is the model fault of R31.
Outside lerp's domain there is no value (notes/assumptions/5.md). -/
def lerp (s : State) (x : F32) : Except Fault F32 :=
  match lerpIndex x s.tableLen with
  | none => .error .phaseOutOfRange
  | some i0 =>
    match tableRead s i0, tableRead s ((i0 + 1) % s.tableLen.toNat) with
    | .ok t0, .ok t1 => .ok (blend x i0 t0 t1)
    | .error e, _ => .error e
    | .ok _, .error e => .error e

end Sys2Proof.Machine
end

