-- ==== Sys2Proof/Machine/PhaseAccumulator.lean ====
section
/-! DEFINITION. The phase accumulator (43_phase_accumulator.md): the increment, the advance, the wrap, and
SET_FREQ. -/

namespace Sys2Proof.Machine

/-- `incr(F, L, SR) = (F ⊗ to_f32(L)) ⊘ to_f32(SR)` (R100). -/
def increment (freq : F32) (len : BitVec 16) (rate : BitVec 32) : F32 :=
  f32Div (f32Mul freq (lengthF32 len)) (rateF32 rate)

/-- The remainder brought up by one length when it is negative (R103). -/
def renormalise (r l : F32) : F32 := if f32Lt r 0x00000000#32 then f32Fmod (f32Add r l) l else r

/-- `-0.0` becomes `+0.0` (R103). -/
def positiveZero (r : F32) : F32 := if f32Eq r 0x00000000#32 then 0x00000000#32 else r

/-- `wrapE(s, L)` (R103). -/
def wrapE (x : F32) (len : BitVec 16) : F32 :=
  positiveZero (renormalise (f32Fmod x (lengthF32 len)) (lengthF32 len))

/-- `wrapF(s, L)` (R104). -/
def wrapF (x : F32) (len : BitVec 16) : F32 := f32Fmod x (lengthF32 len)

/-- The wrap of the parameter `WRAP_MODE` (R102). -/
def wrapPhase : WrapMode → F32 → BitVec 16 → F32
  | .euclidean, x, len => wrapE x len
  | .fmod, x, len => wrapF x len

/-- The phase after `advance()` (R102): `wrap(S.INDEX ⊕ S.INCR, S.TABLE_LEN)`. -/
def advancedIndex (s : State) : F32 := wrapPhase s.params.wrapMode (f32Add s.index s.incr) s.tableLen

/-- `SET_FREQ freq` (R101): the mode, the operand, then the computed increment is checked (R142). -/
def execSetFreq (freq : F32) (s : State) : Result :=
  if s.mode ≠ .active then raise .errState s
  else if !f32IsFinite freq then raise .errNonfinite s
  else if !f32IsFinite (increment freq s.tableLen s.sampleRate) then raise .errNonfinite s
  else respond .ok 0x00000000#32 (s.setIncr (increment freq s.tableLen s.sampleRate))

end Sys2Proof.Machine
end

