-- ==== Sys2Proof/Machine/SampleSource.lean ====
section
/-! DEFINITION. The sample source (45_sample_source.md): GET_SAMPLE, GET_INFO, PEEK. -/

namespace Sys2Proof.Machine

/-- `GET_SAMPLE` (R120): the sample at the current phase, then the advance. A negative phase sets `S.FAULT` and
answers `ERR_PHASE` with the phase not advanced. -/
def execGetSample (s : State) : Result :=
  if s.mode ≠ .active then raise .errState s
  else if f32Lt s.index 0x00000000#32 then raise .errPhase s.setFault
  else
    match lerp s s.index with
    | .ok y => respond .ok y (s.setIndex (advancedIndex s))
    | .error e => modelFault e

/-- What a GET_INFO selector reads (R121); `0xFFFFFFFF` says "none". -/
def infoValue (s : State) : InfoSelector → Word
  | .channels => Config.numChannels
  | .rate => s.sampleRate
  | .duration => 0xFFFFFFFF#32
  | .frameLen => 0xFFFFFFFF#32

/-- `GET_INFO sel` (R121). -/
def execGetInfo (sel : Nat) (s : State) : Result :=
  if s.mode ≠ .active then raise .errState s
  else
    match infoSelector sel with
    | some i => respond .ok (infoValue s i) s
    | none => raise .errRange s

/-- What a PEEK selector reads (R122). -/
def peekValue (s : State) : PeekSelector → Word
  | .index => s.index
  | .incr => s.incr
  | .rate => s.sampleRate
  | .len => zext32 s.tableLen
  | .status => statusWord s

/-- `PEEK sel` (R122): legal in both modes. -/
def execPeek (sel : Nat) (s : State) : Result :=
  match peekSelector sel with
  | some p => respond .ok (peekValue s p) s
  | none => raise .errRange s

end Sys2Proof.Machine
end

