-- ==== Sys2Proof/Machine/TableStore.lean ====
section
/-! DEFINITION. The table store's two commands (41_table_store.md): TBL_WR and TBL_RD. -/

namespace Sys2Proof.Machine

/-- `TBL_WR addr, value` (R80): the mode, then the address, then the value is checked (R142). -/
def execTblWr (addr : Nat) (value : F32) (s : State) : Result :=
  if s.mode ≠ .idle then raise .errState s
  else if !inTable s addr then raise .errRange s
  else if !f32IsFinite value then raise .errNonfinite s
  else respond .ok 0x00000000#32 (s.setEntry addr value)

/-- `TBL_RD addr` (R81): legal in both modes. -/
def execTblRd (addr : Nat) (s : State) : Result :=
  if !inTable s addr then raise .errRange s
  else
    match tableRead s addr with
    | .ok v => respond .ok v s
    | .error e => modelFault e

end Sys2Proof.Machine
end

