-- ==== Sys2Proof/Machine/Dispatch.lean ====
section
/-! DEFINITION. One arm per command of Instr, each one call of its meaning. -/

namespace Sys2Proof.Machine

def exec (i : Instr) (s : State) : Host.Outcome State Fault Refusal :=
  match i with
  | .nop => Sys2Proof.Machine.execNop s
  | .tblWr addr value => Sys2Proof.Machine.execTblWr addr value s
  | .tblRd addr => Sys2Proof.Machine.execTblRd addr s
  | .construct len rate => Sys2Proof.Machine.execConstruct len rate s
  | .setFreq freq => Sys2Proof.Machine.execSetFreq freq s
  | .getSample => Sys2Proof.Machine.execGetSample s
  | .getInfo sel => Sys2Proof.Machine.execGetInfo sel s
  | .release => Sys2Proof.Machine.execRelease s
  | .peek sel => Sys2Proof.Machine.execPeek sel s

end Sys2Proof.Machine
end

