-- ==== Sys2Proof/Machine/Port.lean ====
section
/-! DEFINITION. The command port (R60, R61, R63): what the block does with the host's next input. The block has no
program counter and fetches nothing (R30): its program is the host's sequence of commands. -/

namespace Sys2Proof.Machine

/-- One command word (R63): the command it stands for runs; a word that stands for none answers `ERR_ILLEGAL` and
changes nothing. Decoding comes before every other check (R142). -/
def runCommand (w : CommandWord) (s : State) : Result :=
  match decode w with
  | .ok i => exec i s
  | .error _ => raise .errIllegal s

/-- The host's next input, taken from the port in issue order (R46). -/
def acceptInput (s : State) : Result :=
  match s.inputs with
  | [] => .next s.wait
  | .command w :: rest => runCommand w (s.setInputs rest)
  | .reset :: rest => .next (s.setInputs rest).hardwareReset
  | .resetDuring _ :: rest => .next (s.setInputs rest).hardwareReset

/-- The host issues the word `w` before anything else it was going to do. -/
def State.issue (s : State) (w : CommandWord) : State := s.setInputs (.command w :: s.inputs)

end Sys2Proof.Machine
end

