-- ==== Sys2Proof/Machine/Step.lean ====
section
/-! DEFINITION. One step of the block: the host's next input, as one atomic step (R13, R46). -/

namespace Sys2Proof.Machine

/-- One step (R5, R46): the block never acts on its own. -/
def step (s : State) : Host.Outcome State Fault Refusal := acceptInput s

/-- `s` with the command of the opcode table's word `w` at the port, so that the next step runs exactly it. -/
def State.withFetchWord (s : State) (nbits w : Nat) : State := s.issue (tableWord nbits w)

end Sys2Proof.Machine
end

