-- ==== Sys2Proof/Machine/TableImages.lean ====
section
/-! DEFINITION. The reference table images the host's builders produce (R82, R83). The block stores a table and
computes none (00_scope.md section 3). -/

namespace Sys2Proof.Machine

/-- `-1.0` and `+1.0` (R82). -/
def squareLow : F32 := 0xBF800000#32
def squareHigh : F32 := 0x3F800000#32

/-- Sample `n` of the square image of length `L` (R82): the boundary sample `n = L/2` is low. -/
def squareSample (len n : Nat) : F32 := if n ≤ len / 2 then squareLow else squareHigh

/-- `build_square(L)` (R82). -/
def buildSquare (len : Nat) : List F32 := (List.range len).map (squareSample len)

/-- When a host image conforms to `SINE_IMAGE` for length `L` (R83): its bits are open, its values are bounded. -/
def SineImageConforms (len : Nat) (image : List F32) : Prop :=
  image.length = len ∧ image[0]? = some 0x00000000#32 ∧ (∀ v ∈ image, f32IsFinite v = true) ∧
    ∀ (n : Nat) (h : n < image.length),
      |(f32Scaled image[n] : ℝ) / 2 ^ 149 - Real.sin (2 * Real.pi * n / len)| ≤ 1 / 1000000

end Sys2Proof.Machine
end

