-- ==== Sys2Proof/Machine/Assembler.lean ====
section
/-! DEFINITION. The assembler's command text (R68, R69) and pseudo-instructions (R70). Host-side: no step of the
block uses it. Text is a list of characters. What R68 leaves to the reader of its grammar is in
notes/assumptions/9.md. -/

namespace Sys2Proof.Machine

/-- One line of assembler text: a command, or a pseudo-instruction of R70. -/
inductive AsmLine where
  | command (i : Instr)
  | loadTable (values : List F32)
  | loadSquare (len : BitVec 16)
  | loadSine (len : BitVec 16)
  | restart (len : BitVec 16) (rate : Word)
  | pull (n : Nat)
deriving DecidableEq, Repr

/-- `LOAD_TABLE`: the writes of `values` from address `a` up (R70, R84). -/
def loadTableFrom (a : Nat) : List F32 → List Instr
  | [] => []
  | v :: rest => .tblWr a v :: loadTableFrom (a + 1) rest

/-- The real commands a line stands for (R70). `SINE_IMAGE` is an argument (R4, R83). -/
def AsmLine.expand (sineImage : Nat → List F32) : AsmLine → List Instr
  | .command i => [i]
  | .loadTable values => loadTableFrom 0 values
  | .loadSquare len => loadTableFrom 0 (buildSquare len.toNat)
  | .loadSine len => loadTableFrom 0 (sineImage len.toNat)
  | .restart len rate => [.release, .construct len rate]
  | .pull n => List.replicate n .getSample

/-! ### Characters, numbers and binary32 literals -/

def isBlank (c : Char) : Bool := c == ' ' || c == '\t' || c == '\r'

/-- Comments start with `;` (R68). -/
def stripComment (line : List Char) : List Char := line.takeWhile (· != ';')

def trimBlanks (t : List Char) : List Char := ((t.dropWhile isBlank).reverse.dropWhile isBlank).reverse

/-- The pieces between the separators `sep`. -/
def splitAt (sep : Char) : List Char → List (List Char)
  | [] => [[]]
  | c :: rest =>
    if c = sep then [] :: splitAt sep rest
    else
      match splitAt sep rest with
      | [] => [[c]]
      | piece :: more => (c :: piece) :: more

def decimalDigit (c : Char) : Option Nat :=
  if '0' ≤ c && c ≤ '9' then some (c.toNat - '0'.toNat) else none

def hexDigit (c : Char) : Option Nat :=
  if 'a' ≤ c && c ≤ 'f' then some (c.toNat - 'a'.toNat + 10)
  else if 'A' ≤ c && c ≤ 'F' then some (c.toNat - 'A'.toNat + 10)
  else decimalDigit c

/-- The digits' value after the value `acc` so far; refuses a character that is no digit. -/
def digitsFrom (digit : Char → Option Nat) (base acc : Nat) : List Char → Option Nat
  | [] => some acc
  | c :: rest => (digit c).bind fun d => digitsFrom digit base (acc * base + d) rest

def parseDigits (digit : Char → Option Nat) (base : Nat) (t : List Char) : Option Nat :=
  if t = [] then none else digitsFrom digit base 0 t

/-- An integer operand, decimal or `0x` hexadecimal (R68). -/
def parseNat : List Char → Option Nat
  | '0' :: 'x' :: rest => parseDigits hexDigit 16 rest
  | t => parseDigits decimalDigit 10 t

/-- The sign and the rest of a literal. -/
def takeSign : List Char → Bool × List Char
  | '-' :: rest => (true, rest)
  | t => (false, t)

/-- `± coefficient * 10^(exponent - places)` to binary32 by `fl`, once (R69). -/
def decimalToF32 (neg : Bool) (coefficient places : Nat) (expNeg : Bool) (exponent : Nat) : F32 :=
  if expNeg then f32Round neg (coefficient * f32Unit) (10 ^ (places + exponent))
  else f32Round neg (coefficient * 10 ^ exponent * f32Unit) (10 ^ places)

/-- The exponent part of a decimal literal: nothing, or `e`, an optional `-` and digits. DEDUCED
(notes/assumptions/9.md): R69 shows `1e-45` and gives no grammar; the model refuses a plus sign (`1e+5`) and a capital
`E`. -/
def parseExponent : List Char → Option (Bool × Nat)
  | [] => some (false, 0)
  | 'e' :: rest => (parseDigits decimalDigit 10 (takeSign rest).2).map fun n => ((takeSign rest).1, n)
  | _ => none

def isDecimalDigit (c : Char) : Bool := (decimalDigit c).isSome

/-- The fraction digits after a point, and what follows them. -/
def takeFraction : List Char → List Char × List Char
  | '.' :: rest => (rest.takeWhile isDecimalDigit, rest.dropWhile isDecimalDigit)
  | t => ([], t)

/-- A decimal literal such as `220.0`, `-1.0` or `1e-45` (R69). One that `fl` takes to infinity (`1e39`) is refused: the
hexadecimal form "is the only way to write NaN, infinities". DEDUCED (notes/assumptions/9.md): an optional `-`, no `+`;
at least one digit, before or after an optional point; then `parseExponent`. -/
def parseDecimal (t : List Char) : Option F32 :=
  let (neg, body) := takeSign t
  let whole := body.takeWhile isDecimalDigit
  let (fraction, tail) := takeFraction (body.dropWhile isDecimalDigit)
  match parseDigits decimalDigit 10 (whole ++ fraction), parseExponent tail with
  | some coefficient, some (expNeg, exponent) =>
    let value := decimalToF32 neg coefficient fraction.length expNeg exponent
    if f32IsFinite value then some value else none
  | _, _ => none

/-- A binary32 operand (R69): `0x` and 8 hex digits are the bits themselves; anything else is a decimal literal. -/
def parseF32 : List Char → Option F32
  | '0' :: 'x' :: rest =>
    if rest.length = 8 then (parseDigits hexDigit 16 rest).map (BitVec.ofNat 32) else none
  | t => parseDecimal t

/-! ### Operands and lines (R68) -/

/-- A number that fits `n` bits; the assembler refuses anything larger (R68). -/
def parseBits (n : Nat) (t : List Char) : Option (BitVec n) :=
  (parseNat t).bind fun v => if v < 2 ^ n then some (BitVec.ofNat n v) else none

/-- A GET_INFO selector, by name or number (R68). -/
def parseInfoSelector (t : List Char) : Option Nat :=
  if t = "CHANNELS".toList then some 0
  else if t = "RATE".toList then some 1
  else if t = "DURATION".toList then some 2
  else if t = "FRAMELEN".toList then some 3
  else parseNat t

/-- A PEEK selector, by name or number (R68). -/
def parsePeekSelector (t : List Char) : Option Nat :=
  if t = "INDEX".toList then some 0
  else if t = "INCR".toList then some 1
  else if t = "RATE".toList then some 2
  else if t = "LEN".toList then some 3
  else if t = "STATUS".toList then some 4
  else parseNat t

/-- `NOP`, `GET_SAMPLE` and `RELEASE` take no operand. -/
def parseNoOperand (word : List Char) : Option AsmLine :=
  if word = "NOP".toList then some (.command .nop)
  else if word = "GET_SAMPLE".toList then some (.command .getSample)
  else if word = "RELEASE".toList then some (.command .release)
  else none

/-- Every value of a list that starts with one operand. -/
def parseAll (parse : List Char → Option F32) : List (List Char) → Option (List F32)
  | [] => some []
  | t :: rest => (parse t).bind fun v => (parseAll parse rest).map (v :: ·)

/-- The lines with one operand; `LOAD_TABLE` with one value is read in `parseCommand`. An L must fit in 16 bits (R68). -/
def parseOneOperand (word a : List Char) : Option AsmLine :=
  if word = "TBL_RD".toList then (parseNat a).map fun n => .command (.tblRd n)
  else if word = "SET_FREQ".toList then (parseF32 a).map fun v => .command (.setFreq v)
  else if word = "GET_INFO".toList then (parseInfoSelector a).map fun n => .command (.getInfo n)
  else if word = "PEEK".toList then (parsePeekSelector a).map fun n => .command (.peek n)
  else if word = "LOAD_SQUARE".toList then (parseBits 16 a).map .loadSquare
  else if word = "LOAD_SINE".toList then (parseBits 16 a).map .loadSine
  else if word = "PULL".toList then (parseNat a).map .pull
  else none

/-- The lines with two operands. -/
def parseTwoOperands (word a b : List Char) : Option AsmLine :=
  if word = "TBL_WR".toList then (parseNat a).bind fun n => (parseF32 b).map fun v => .command (.tblWr n v)
  else if word = "CONSTRUCT".toList then
    (parseBits 16 a).bind fun l => (parseBits 32 b).map fun r => .command (.construct l r)
  else if word = "RESTART".toList then (parseBits 16 a).bind fun l => (parseBits 32 b).map fun r => .restart l r
  else none

/-- A mnemonic and its operands (R68, R70). -/
def parseCommand (word : List Char) (operands : List (List Char)) : Option AsmLine :=
  if word = "LOAD_TABLE".toList then
    (if operands = [] then none else (parseAll parseF32 operands).map .loadTable)
  else
    match operands with
    | [] => parseNoOperand word
    | [a] => parseOneOperand word a
    | [a, b] => parseTwoOperands word a b
    | _ => none

/-- The operands of a line, separated by commas (R68). -/
def splitOperands (t : List Char) : List (List Char) :=
  if trimBlanks t = [] then [] else (splitAt ',' t).map trimBlanks

/-- An image of length 0 is refused by the host (R82). -/
def AsmLine.accepted (sineImage : Nat → List F32) (l : AsmLine) : Bool :=
  (match l with
    | .loadSquare len => len != 0#16
    | .loadSine len => len != 0#16
    | .command _ => true
    | .loadTable _ => true
    | .restart _ _ => true
    | .pull _ => true)
    && (l.expand sineImage).all Instr.wellFormed

/-- One line of text (R68): nothing for a blank line, the expansion of a command, or `none` where the assembler
refuses. -/
def assembleLine (sineImage : Nat → List F32) (line : List Char) : Option (List Instr) :=
  let body := trimBlanks (stripComment line)
  if body = [] then some []
  else
    (parseCommand (body.takeWhile fun c => !isBlank c)
        (splitOperands (body.dropWhile fun c => !isBlank c))).bind fun l =>
      if l.accepted sineImage then some (l.expand sineImage) else none

/-- The lines of a text in order, one command per line (R68). -/
def assembleLines (sineImage : Nat → List F32) : List (List Char) → Option (List Instr)
  | [] => some []
  | line :: rest =>
    (assembleLine sineImage line).bind fun is => (assembleLines sineImage rest).map (is ++ ·)

/-- A text's command words. -/
def assemble (sineImage : Nat → List F32) (text : List Char) : Option (List CommandWord) :=
  (assembleLines sineImage (splitAt '\n' text)).map (List.map encode)

end Sys2Proof.Machine
end

