-- ==== Sys2Proof/Safety.lean ====
section
/-! DEFINITION. The terms claims are stated in: the invariant of a run (R27), correct rounding (R8), what a run
shows (R168), and the tables of R64 and R141 by opcode. -/

namespace Sys2Proof.Machine

/-! ### The invariant (R27) -/

/-- Every entry written is at an address of the table space and is finite (R26, R40, R80). -/
structure TableInv (s : State) : Prop where
  canonical : Memory.wf s.table
  inRange : ∀ e ∈ s.table, e.1 < s.params.tableDepth.toNat
  finite : ∀ e ∈ s.table, f32IsFinite e.2 = true

/-- While IDLE the oscillator's elements hold their reset values (R91, R160; R122: "In `IDLE`, selectors 0 to 3 return
the reset values"). -/
structure IdleInv (s : State) : Prop where
  len : s.tableLen = 0#16
  rate : s.sampleRate = 0#32
  index : s.index = 0x00000000#32
  incr : s.incr = 0x00000000#32

/-- While ACTIVE, items 1 to 4 of R27. -/
structure ActiveInv (s : State) : Prop where
  lenPos : s.tableLen ≠ 0#16
  lenLe : s.tableLen.toNat ≤ s.params.tableDepth.toNat
  rate : s.sampleRate ≠ 0#32
  incrFinite : f32IsFinite s.incr = true
  indexFinite : f32IsFinite s.index = true
  /-- `|S.INDEX| < L`. -/
  indexBound : f32Magnitude s.index < s.tableLen.toNat * f32Unit
  /-- Under EUCLIDEAN the phase is `+0.0` or positive. -/
  euclidean : s.params.wrapMode = .euclidean → f32Sign s.index = false

/-- What holds of the block after reset and after every command (R27). -/
structure Inv (s : State) : Prop where
  params : s.params.wf
  table : TableInv s
  idle : s.mode = .idle → IdleInv s
  active : s.mode = .active → ActiveInv s
  /-- `S.FAULT` can be set under FMOD only (R21). -/
  faultFmod : s.fault = true → s.params.wrapMode = .fmod

/-! ### Correct rounding (R8) -/

/-- `r` is the finite binary32 value nearest `n / d` (in units of 2^-149), and at a tie the one whose last fraction bit
is 0. -/
def NearestEven (n : Int) (d : Nat) (r : F32) : Prop :=
  f32IsFinite r = true ∧
    ∀ z : F32, f32IsFinite z = true →
      |n - d * f32Scaled r| ≤ |n - d * f32Scaled z| ∧
        (|n - d * f32Scaled r| = |n - d * f32Scaled z| → f32Scaled z ≠ f32Scaled r → f32Fraction r % 2 = 0)

/-- Half-way from the largest finite magnitude to 2^128, in units of 2^-149: from there roundTiesToEven overflows to
infinity (R8). -/
def overflowBound : Nat := (2 ^ 25 - 1) * 2 ^ 252

/-- `r` is `n / d` (in units of 2^-149) rounded with roundTiesToEven, overflow to infinity included (R8). -/
def RoundsTo (n : Int) (d : Nat) (r : F32) : Prop :=
  (n.natAbs < d * overflowBound → NearestEven n d r) ∧
    (d * overflowBound ≤ n.natAbs → r = f32Infinity (decide (n < 0)))

/-! ### What a run shows (R168) -/

/-- `k` steps and the responses seen on the way, in order; a fault or a refusal ends it. -/
def observe : Nat → State → Host.Outcome (State × List Response) Fault Refusal
  | 0, s => .next (s, [])
  | k + 1, s =>
    match step s with
    | .fault r => .fault r
    | .refused r => .refused r
    | .next t =>
      match observe k t with
      | .fault r => .fault r
      | .refused r => .refused r
      | .next (u, seen) => .next (u, t.response.toList ++ seen)

/-- A clean run of `k` steps (R168): it does not stop, no response is `ERR_PHASE`, and `S.FAULT = 0` at its end. -/
def CleanRun (k : Nat) (s : State) : Prop :=
  ∃ t seen, observe k s = .next (t, seen) ∧ t.fault = false ∧ ∀ r ∈ seen, r.status ≠ .errPhase

/-! ### The command tables by opcode -/

/-- The status codes a word with this `OPC` can be answered with (R141; R65 for the reserved opcodes). -/
def possibleStatuses (opc : Nat) : List Status :=
  match opc with
  | 0x00 => [.ok, .errIllegal]
  | 0x01 => [.ok, .errIllegal, .errState, .errRange, .errNonfinite]
  | 0x02 => [.ok, .errIllegal, .errRange]
  | 0x03 => [.ok, .errIllegal, .errState, .errInvalidTable, .errInvalidRate]
  | 0x04 => [.ok, .errIllegal, .errState, .errNonfinite]
  | 0x05 => [.ok, .errIllegal, .errState, .errPhase]
  | 0x06 => [.ok, .errIllegal, .errState, .errRange]
  | 0x07 => [.ok, .errIllegal, .errState]
  | 0x08 => [.ok, .errIllegal, .errRange]
  | _ => [.errIllegal]

/-- Commands that are legal in ACTIVE only (R64, R93). -/
def activeOnly : Instr → Bool
  | .setFreq _ => true
  | .getSample => true
  | .getInfo _ => true
  | .release => true
  | .nop => false
  | .tblWr _ _ => false
  | .tblRd _ => false
  | .construct _ _ => false
  | .peek _ => false

/-- Commands that are legal in IDLE only (R64, R93). -/
def idleOnly : Instr → Bool
  | .tblWr _ _ => true
  | .construct _ _ => true
  | .nop => false
  | .tblRd _ => false
  | .setFreq _ => false
  | .getSample => false
  | .getInfo _ => false
  | .release => false
  | .peek _ => false

/-- Commands whose `OK` response carries a result (R61). -/
def hasResult : Instr → Bool
  | .tblRd _ => true
  | .getSample => true
  | .getInfo _ => true
  | .peek _ => true
  | .nop => false
  | .tblWr _ _ => false
  | .construct _ _ => false
  | .setFreq _ => false
  | .release => false

end Sys2Proof.Machine
end

