-- ==== Sys2Proof/Certificates/Slice0/Obligations.lean ====
section
/-! DEFINITION. The statements about the model, for the provers. Each docstring names the rules of the spec it rests
on. Statements about a result say the whole next state, so they say the frame: every field not named keeps its
value. -/

open Sys2Proof Sys2Proof.Machine

/-! ### Reset, the port, a step -/

/-- R160: the values every element has after reset; no table entry is written (R31). -/
def Obligations.ResetStateHoldsResetValues : Prop :=
  State.reset.mode = .idle ∧ State.reset.fault = false ∧ State.reset.sampleRate = 0#32 ∧
    State.reset.tableLen = 0#16 ∧ State.reset.index = 0x00000000#32 ∧ State.reset.incr = 0x00000000#32 ∧
    ∀ a, Memory.written State.reset.table a = false

/-- R160, R161: from every state, hardware reset, with or without a command in flight, leaves the reset values and no
written entry. The model's choices (log entries 1, 3, 7): the response wires are clear after either reset, and the fields
for the hardwired parameters and the host's later inputs stay. -/
def Obligations.HardwareResetFromEveryState : Prop :=
  ∀ (s : State) (w : CommandWord) (rest : List HostInput),
    s.inputs = .reset :: rest ∨ s.inputs = .resetDuring w :: rest →
    ∃ t, step s = .next t ∧ t.mode = .idle ∧ t.fault = false ∧ t.sampleRate = 0#32 ∧ t.tableLen = 0#16 ∧
      t.index = 0x00000000#32 ∧ t.incr = 0x00000000#32 ∧ (∀ a, Memory.written t.table a = false) ∧
      t.response = none ∧ t.params = s.params ∧ t.inputs = rest

/-- R46, R63: a command word at the port that decodes to `i` runs `i` on the state with the word taken from the port;
and a word placed by `withFetchWord` is the command that runs. That the port is a list in State is the model's choice
(log entry 3). -/
def Obligations.StepRunsDecodedCommand : Prop :=
  (∀ (s : State) (w : CommandWord) (rest : List HostInput) (i : Instr),
    s.inputs = .command w :: rest → decode w = .ok i → step s = exec i { s with inputs := rest }) ∧
  (∀ (s : State) (i : Instr), i.WellFormed → step (s.withFetchWord 64 (encode i).toNat) = exec i s)

/-- R152: with nothing at the port the block holds its state; only the response wires fall. That a step may find nothing
at the port is the model's choice (log entry 6). -/
def Obligations.WaitingBlockHoldsState : Prop :=
  ∀ s : State, s.inputs = [] → step s = .next { s with response := none }

/-- R61: every accepted command that the model answers gives exactly one response, whose data is zero unless the
status is OK and the command is one of the four that carry a result; the word is consumed. -/
def Obligations.OneResponsePerCommand : Prop :=
  ∀ (s t : State) (w : CommandWord) (rest : List HostInput),
    s.inputs = .command w :: rest → step s = .next t →
    ∃ r, t.response = some r ∧ t.inputs = rest ∧
      (r.status ≠ .ok → r.rdata = 0#32) ∧
      (∀ i, decode w = .ok i → hasResult i = false → r.rdata = 0#32)

/-! ### Decoding -/

/-- R63: at most one row of the opcode table matches a word; a word that a row matches decodes to that row's command;
a word that no row matches answers ERR_ILLEGAL and changes nothing. -/
def Obligations.DecodeFollowsOpcodeTable : Prop :=
  ∀ w : CommandWord,
    (∀ r ∈ opcodeTable, ∀ r' ∈ opcodeTable, r.Matches w → r'.Matches w → r = r') ∧
    (∀ r ∈ opcodeTable, r.Matches w → ∃ i, decode w = .ok i ∧ i.mnemonic = r.mnemonic) ∧
    ((∀ r ∈ opcodeTable, ¬ r.Matches w) → ∀ (s : State) (rest : List HostInput), s.inputs = .command w :: rest →
      step s = .next { s with inputs := rest, response := some ⟨.errIllegal, 0#32⟩ })

/-- R66, and R65's reserved opcodes: a reserved opcode, a non-zero RSV, and a non-zero AUX or DATA where the command
requires zero, are no command; the block answers ERR_ILLEGAL and changes nothing. -/
def Obligations.ReservedAndMustBeZeroFieldsIllegal : Prop :=
  ∀ (s : State) (w : CommandWord) (rest : List HostInput),
    s.inputs = .command w :: rest →
    (0x09 ≤ (opcField w).toNat ∨ rsvField w ≠ 0x00#8 ∨
      ((opcField w).toNat ∈ [0x00, 0x04, 0x05, 0x07] ∧ auxField w ≠ 0x0000#16) ∨
      ((opcField w).toNat ∈ [0x00, 0x02, 0x05, 0x06, 0x07, 0x08] ∧ dataField w ≠ 0x00000000#32)) →
    (∃ e, decode w = .error e) ∧ step s = .next { s with inputs := rest, response := some ⟨.errIllegal, 0#32⟩ }

/-- Every well-formed command is read back from its own word, with every operand (R60, R64). -/
def Obligations.DecodeOfEncodeIsIdentity : Prop :=
  ∀ i : Instr, i.WellFormed → decode (encode i) = .ok i

/-- A word that decodes is the word of the command it decodes to: no bit is ignored, and no command has two words
(R60, R63, R66). -/
def Obligations.EncodeOfDecodeIsIdentity : Prop :=
  ∀ (w : CommandWord) (i : Instr), decode w = .ok i → i.WellFormed ∧ encode i = w

/-- The spec's own example words (R68, R80, R81, R90, R91, R92, R101, R120, R121, R122). -/
def Obligations.SpecExampleWordsDecode : Prop :=
  decode 0x0000000000000000#64 = .ok .nop ∧
    decode 0x010000033F400000#64 = .ok (.tblWr 3 0x3F400000#32) ∧
    decode 0x0200000300000000#64 = .ok (.tblRd 3) ∧
    decode 0x030000400000AC44#64 = .ok (.construct 64#16 44100#32) ∧
    decode 0x04000000435C0000#64 = .ok (.setFreq 0x435C0000#32) ∧
    decode 0x0500000000000000#64 = .ok .getSample ∧
    decode 0x0600000100000000#64 = .ok (.getInfo 1) ∧
    decode 0x0700000000000000#64 = .ok .release ∧
    decode 0x0800000400000000#64 = .ok (.peek 4) ∧
    decode 0x0800000700000000#64 = .ok (.peek 7)

/-- Every word the assembler makes of any text is the word of a well-formed command (R68, R70). -/
def Obligations.AssembledWordsDecode : Prop :=
  ∀ (sineImage : Nat → List F32) (text : List Char) (ws : List CommandWord),
    assemble sineImage text = some ws → ∀ w ∈ ws, ∃ i, decode w = .ok i ∧ i.WellFormed ∧ encode i = w

/-! ### Rules over all commands -/

/-- R143: a command whose status is not OK changes no element and no entry, but that ERR_PHASE sets S.FAULT. -/
def Obligations.FailedCommandChangesNothing : Prop :=
  ∀ (s t : State) (w : CommandWord) (rest : List HostInput) (r : Response),
    s.inputs = .command w :: rest → step s = .next t → t.response = some r → r.status ≠ .ok →
    t = { s with inputs := rest, response := some r, fault := s.fault || decide (r.status = .errPhase) }

/-- R141: a word with a given OPC is answered with one of the codes the table gives its command. -/
def Obligations.StatusByCommand : Prop :=
  ∀ (s t : State) (w : CommandWord) (rest : List HostInput),
    s.inputs = .command w :: rest → step s = .next t →
    ∃ r, t.response = some r ∧ r.status ∈ possibleStatuses (opcField w).toNat

/-- R93, R142: a command in the wrong mode answers ERR_STATE, whatever its operands, and changes nothing. -/
def Obligations.WrongModeAnswersErrState : Prop :=
  ∀ (i : Instr) (s : State),
    (s.mode = .idle ∧ activeOnly i = true ∨ s.mode = .active ∧ idleOnly i = true) →
    exec i s = .next { s with response := some ⟨.errState, 0#32⟩ }

/-- R20: CONSTRUCT takes S.MODE from IDLE to ACTIVE, RELEASE from ACTIVE to IDLE, each answering OK, and no other
command writes it. -/
def Obligations.ModeWrittenOnlyByConstructAndRelease : Prop :=
  ∀ (i : Instr) (s t : State), exec i s = .next t → t.mode ≠ s.mode →
    t.response = some ⟨.ok, 0#32⟩ ∧
      ((∃ len rate, i = .construct len rate) ∧ s.mode = .idle ∧ t.mode = .active ∨
        i = .release ∧ s.mode = .active ∧ t.mode = .idle)

/-- R21: S.FAULT is 0 after reset and sticky: only a GET_SAMPLE answering ERR_PHASE sets it, that happens under FMOD only
(in a state a run can reach), and no command clears it, only hardware reset does. -/
def Obligations.FaultStickyAndSetOnlyByErrPhase : Prop :=
  State.reset.fault = false ∧
  ∀ (s t : State), Inv s → step s = .next t →
    (s.fault = true → t.fault = false → ∃ rest, s.inputs = .reset :: rest ∨ ∃ w, s.inputs = .resetDuring w :: rest) ∧
    (s.fault = false → t.fault = true →
      ∃ w rest, s.inputs = .command w :: rest ∧ decode w = .ok .getSample ∧
        t.response = some ⟨.errPhase, 0#32⟩ ∧ s.params.wrapMode = .fmod)

/-- R26, R45, R49: the only command that changes a table entry is a TBL_WR to that address in IDLE; the value written
is finite and is what the entry holds. -/
def Obligations.EntryWrittenOnlyByTblWrInIdle : Prop :=
  ∀ (i : Instr) (s t : State) (a : Nat), exec i s = .next t → Memory.read t.table a ≠ Memory.read s.table a →
    ∃ v, i = .tblWr a v ∧ s.mode = .idle ∧ f32IsFinite v = true ∧ Memory.read t.table a = some v

/-- R22, R23, R28, R33: S.INDEX is changed only by CONSTRUCT, RELEASE and GET_SAMPLE, S.INCR only by CONSTRUCT, RELEASE
and SET_FREQ, the rate and the length only by CONSTRUCT and RELEASE, and the hardwired parameters (which the model holds
in State, log entry 1) by no command. -/
def Obligations.OscillatorElementsWrittenOnlyByTheirCommands : Prop :=
  ∀ (i : Instr) (s t : State), exec i s = .next t →
    (t.index ≠ s.index → (∃ len rate, i = .construct len rate) ∨ i = .release ∨ i = .getSample) ∧
    (t.incr ≠ s.incr → (∃ len rate, i = .construct len rate) ∨ i = .release ∨ ∃ f, i = .setFreq f) ∧
    (t.sampleRate ≠ s.sampleRate ∨ t.tableLen ≠ s.tableLen → (∃ len rate, i = .construct len rate) ∨ i = .release) ∧
    t.params = s.params

/-! ### The invariant (R27) -/

/-- The invariant holds after reset. -/
def Obligations.InvariantHoldsAtReset : Prop := Inv State.reset

/-- Every step keeps the invariant, from every state that meets it and for every input (R22 to R27). -/
def Obligations.InvariantKeptByEveryStep : Prop :=
  ∀ s t : State, Inv s → step s = .next t → Inv t

/-- In a state that meets the invariant no step stops with phaseOutOfRange, the model's own stop (log entry 5): lerp is
only applied in its domain (R51, R112). -/
def Obligations.LerpNeverLeavesItsDomain : Prop :=
  ∀ s : State, Inv s → step s ≠ .fault .phaseOutOfRange

/-! ### Table store -/

/-- R80: TBL_WR in IDLE, with an address in the table and a finite value, stores all 32 bits at that address, leaves
every other entry, and changes nothing else. -/
def Obligations.TblWrStoresTheEntry : Prop :=
  ∀ (s : State) (addr : Nat) (v : F32),
    s.mode = .idle → addr < s.params.tableDepth.toNat → f32IsFinite v = true →
    ∃ m, exec (.tblWr addr v) s = .next { s with table := m, response := some ⟨.ok, 0#32⟩ } ∧
      Memory.read m addr = some v ∧ ∀ a, a ≠ addr → Memory.read m a = Memory.read s.table a

/-- R80, R142: in IDLE the address is checked before the value. -/
def Obligations.TblWrRefusals : Prop :=
  ∀ (s : State) (addr : Nat) (v : F32), s.mode = .idle →
    (s.params.tableDepth.toNat ≤ addr →
      exec (.tblWr addr v) s = .next { s with response := some ⟨.errRange, 0#32⟩ }) ∧
    (addr < s.params.tableDepth.toNat → f32IsFinite v = false →
      exec (.tblWr addr v) s = .next { s with response := some ⟨.errNonfinite, 0#32⟩ })

/-- R43, R81: TBL_RD of a written entry answers its bits, in either mode, and changes nothing. -/
def Obligations.TblRdAnswersTheEntry : Prop :=
  ∀ (s : State) (addr : Nat) (v : F32), addr < s.params.tableDepth.toNat → Memory.read s.table addr = some v →
    exec (.tblRd addr) s = .next { s with response := some ⟨.ok, v⟩ }

/-- R31, R81: TBL_RD of an address past the table answers ERR_RANGE; of an entry not written since reset it is the
spec's model fault. -/
def Obligations.TblRdRangeAndUnwritten : Prop :=
  ∀ (s : State) (addr : Nat),
    (s.params.tableDepth.toNat ≤ addr →
      exec (.tblRd addr) s = .next { s with response := some ⟨.errRange, 0#32⟩ }) ∧
    (addr < s.params.tableDepth.toNat → Memory.written s.table addr = false →
      exec (.tblRd addr) s = .fault .unwrittenTableRead)

/-- R82: the square image has L entries, entry n is -1.0 up to and including L/2 and +1.0 above, so L/2 + 1 are low and
the rest high. -/
def Obligations.SquareImageFollowsTheBoundaryPolicy : Prop :=
  ∀ len : Nat, 1 ≤ len →
    (buildSquare len).length = len ∧
    (∀ (n : Nat) (h : n < (buildSquare len).length),
      (buildSquare len)[n] = if n ≤ len / 2 then 0xBF800000#32 else 0x3F800000#32) ∧
    (buildSquare len).count 0xBF800000#32 = len / 2 + 1 ∧
    (buildSquare len).count 0x3F800000#32 = len - len / 2 - 1

/-- R70, R84: the expansion of LOAD_TABLE, issued in IDLE for any finite values that fit the table, completes and leaves
exactly those values in entries 0 up, every entry above as it was. -/
def Obligations.LoadTableLeavesTheValues : Prop :=
  ∀ (vs : List F32) (s : State) (rest : List HostInput),
    s.mode = .idle → vs.length ≤ s.params.tableDepth.toNat → (∀ v ∈ vs, f32IsFinite v = true) →
    s.inputs = ((AsmLine.loadTable vs).expand fun _ => []).map (fun i => .command (encode i)) ++ rest →
    ∃ t : State, Host.Core.run Sys2Proof.core vs.length s = .next t ∧ t.mode = .idle ∧ t.inputs = rest ∧
      (∀ (n : Nat) (h : n < vs.length), Memory.read t.table n = some vs[n]) ∧
      ∀ a, vs.length ≤ a → Memory.read t.table a = Memory.read s.table a

/-! ### Lifecycle -/

/-- R92: NOP answers OK in either mode and changes nothing. -/
def Obligations.NopChangesNothing : Prop :=
  ∀ s : State, exec .nop s = .next { s with response := some ⟨.ok, 0#32⟩ }

/-- R90: CONSTRUCT in IDLE, with 1 ≤ L ≤ TABLE_DEPTH and a non-zero rate, makes the oscillator ACTIVE at phase +0.0 with
increment +0.0; the table and S.FAULT stay. -/
def Obligations.ConstructMakesTheOscillator : Prop :=
  ∀ (s : State) (len : BitVec 16) (rate : Word),
    s.mode = .idle → 1 ≤ len.toNat → len.toNat ≤ s.params.tableDepth.toNat → rate ≠ 0#32 →
    exec (.construct len rate) s = .next { s with
      mode := .active, tableLen := len, sampleRate := rate, index := 0x00000000#32, incr := 0x00000000#32,
      response := some ⟨.ok, 0#32⟩ }

/-- R90, R142: in IDLE the length is checked before the rate. -/
def Obligations.ConstructRefusals : Prop :=
  ∀ (s : State) (len : BitVec 16) (rate : Word), s.mode = .idle →
    (len = 0#16 ∨ s.params.tableDepth.toNat < len.toNat →
      exec (.construct len rate) s = .next { s with response := some ⟨.errInvalidTable, 0#32⟩ }) ∧
    (1 ≤ len.toNat → len.toNat ≤ s.params.tableDepth.toNat → rate = 0#32 →
      exec (.construct len rate) s = .next { s with response := some ⟨.errInvalidRate, 0#32⟩ })

/-- R85, R91: RELEASE in ACTIVE returns the oscillator's elements to their reset values; the table and S.FAULT stay. -/
def Obligations.ReleaseDestroysTheOscillator : Prop :=
  ∀ s : State, s.mode = .active →
    exec .release s = .next { s with
      mode := .idle, tableLen := 0#16, sampleRate := 0#32, index := 0x00000000#32, incr := 0x00000000#32,
      response := some ⟨.ok, 0#32⟩ }

/-! ### Phase accumulator -/

/-- R101: SET_FREQ in ACTIVE, with a finite frequency whose product with L does not overflow, writes the increment
(F ⊗ L) ⊘ SR and nothing else; the quotient is then always finite, since the rate is not 0 (R22). -/
def Obligations.SetFreqWritesTheIncrement : Prop :=
  ∀ (s : State) (f : F32),
    s.mode = .active → s.sampleRate ≠ 0#32 → f32IsFinite f = true →
    f32IsFinite (f32Mul f (toF32 s.tableLen.toNat)) = true →
    exec (.setFreq f) s = .next { s with
      incr := f32Div (f32Mul f (toF32 s.tableLen.toNat)) (toF32 s.sampleRate.toNat)
      response := some ⟨.ok, 0#32⟩ }

/-- R101: in ACTIVE a frequency that is not finite, and one whose product with L overflows, answer ERR_NONFINITE. -/
def Obligations.SetFreqRefusals : Prop :=
  ∀ (s : State) (f : F32), s.mode = .active → s.sampleRate ≠ 0#32 →
    f32IsFinite f = false ∨ f32IsFinite (f32Mul f (toF32 s.tableLen.toNat)) = false →
    exec (.setFreq f) s = .next { s with response := some ⟨.errNonfinite, 0#32⟩ }

/-- R100: the increment is (F ⊗ L) ⊘ SR, with L converted exactly; for a frequency that is not NaN it is not NaN and has
the frequency's sign; it is finite when F is finite and the product does not overflow; F = 0 gives 0. L and SR are as
ACTIVE keeps them. -/
def Obligations.IncrementFormulaAndItsResults : Prop :=
  ∀ (f : F32) (len : BitVec 16) (rate : BitVec 32), len ≠ 0#16 → rate ≠ 0#32 →
    increment f len rate = f32Div (f32Mul f (toF32 len.toNat)) (toF32 rate.toNat) ∧
    f32Scaled (toF32 len.toNat) = ((len.toNat * f32Unit : Nat) : Int) ∧
    (f32IsNaN f = false → f32IsNaN (increment f len rate) = false ∧ f32Sign (increment f len rate) = f32Sign f) ∧
    (f32IsFinite f = true → f32IsFinite (f32Mul f (toF32 len.toNat)) = true →
      f32IsFinite (increment f len rate) = true) ∧
    (f32Magnitude f = 0 → f32Magnitude (increment f len rate) = 0)

/-- R103: for any finite s and 1 ≤ L, the Euclidean wrap is finite, has its sign bit clear and is below L; it is fmod
itself when s has its sign bit clear, +0.0 when the remainder is zero, and the renormalised remainder when it is
negative. -/
def Obligations.EuclideanWrapStaysInRange : Prop :=
  ∀ (x : F32) (len : BitVec 16), f32IsFinite x = true → len ≠ 0#16 →
    f32IsFinite (wrapE x len) = true ∧ f32Sign (wrapE x len) = false ∧
    f32Magnitude (wrapE x len) < len.toNat * f32Unit ∧
    (f32Sign x = false → wrapE x len = f32Fmod x (toF32 len.toNat)) ∧
    (f32Scaled (f32Fmod x (toF32 len.toNat)) = 0 → wrapE x len = 0x00000000#32) ∧
    (f32Scaled (f32Fmod x (toF32 len.toNat)) < 0 →
      wrapE x len = f32Fmod (f32Add (f32Fmod x (toF32 len.toNat)) (toF32 len.toNat)) (toF32 len.toNat))

/-- R104: the reference wrap is one fmod: its result is in (-L, L) and keeps the sign bit of s, so it may be negative or
-0.0. -/
def Obligations.ReferenceWrapKeepsTheSign : Prop :=
  ∀ (x : F32) (len : BitVec 16), f32IsFinite x = true → len ≠ 0#16 →
    wrapF x len = f32Fmod x (toF32 len.toNat) ∧ f32IsFinite (wrapF x len) = true ∧
    f32Sign (wrapF x len) = f32Sign x ∧ f32Magnitude (wrapF x len) < len.toNat * f32Unit

/-- R105 item 1: with S.INCR = ±0.0 and a phase that is not negative, a pull leaves the phase, and the next pull answers
the same sample: in bits where the phase's sign bit is clear, and in value at the phase -0.0 (FMOD only), whose sign an
addition of +0.0 clears. -/
def Obligations.ZeroIncrementFreezesThePhase : Prop :=
  ∀ (s t : State), Inv s → s.mode = .active → f32Magnitude s.incr = 0 → 0 ≤ f32Scaled s.index →
    exec .getSample s = .next t →
    f32Scaled t.index = f32Scaled s.index ∧
      ∃ (u : State) (y z : F32), exec .getSample t = .next u ∧ f32Scaled u.index = f32Scaled s.index ∧
        t.response = some ⟨.ok, y⟩ ∧ u.response = some ⟨.ok, z⟩ ∧
        (f32Sign s.index = false → t.index = s.index ∧ u.index = s.index ∧ z = y) ∧
        (f32Sign s.index = true →
          f32IsFinite y = true ∧ f32IsFinite z = true ∧ f32Scaled z = f32Scaled y)

/-- R105 item 4, R111 items 1 and 5: at an integer phase k (or -0.0) with any finite integer increment j, negative ones
too, a pull answers the value of entry k and leaves an integer phase m in (-L, L). Where k + j is exact in binary32, at
most 2^24 in magnitude, the phase is (k + j) mod L with the non-negative remainder under EUCLIDEAN, and under FMOD too for
a sum that is not negative; FMOD leaves a negative sum's truncated remainder (R104). -/
def Obligations.IntegerIncrementReadsExactEntries : Prop :=
  ∀ (s : State) (k : Nat) (j : Int) (t0 t1 : F32),
    s.mode = .active → k < s.tableLen.toNat →
    f32IsFinite s.index = true → f32Scaled s.index = ((k * f32Unit : Nat) : Int) →
    f32IsFinite s.incr = true → f32Scaled s.incr = j * (f32Unit : Int) →
    Memory.read s.table k = some t0 → Memory.read s.table ((k + 1) % s.tableLen.toNat) = some t1 →
    f32IsFinite t0 = true → f32IsFinite t1 = true →
    ∃ (x y : F32) (m : Int), exec .getSample s = .next { s with index := x, response := some ⟨.ok, y⟩ } ∧
      f32IsFinite y = true ∧ f32Scaled y = f32Scaled t0 ∧
      f32IsFinite x = true ∧ f32Scaled x = m * (f32Unit : Int) ∧ m.natAbs < s.tableLen.toNat ∧
      ((k + j).natAbs ≤ 2 ^ 24 →
        (s.params.wrapMode = .euclidean ∨ f32Sign s.index = false ∧ 0 ≤ k + j →
          x = toF32 ((k + j) % (s.tableLen.toNat : Int)).toNat) ∧
        (s.params.wrapMode = .fmod → m = (k + j).tmod (s.tableLen.toNat : Int)))

/-! ### Interpolator -/

/-- R110: at a phase x with k ≤ x < k + 1 ≤ 65535 the weight w1 = x ⊖ k is exact, and with finite entries both products
are finite and the result is not NaN. -/
def Obligations.BlendWeightIsExactAndResultNeverNaN : Prop :=
  ∀ (x : F32) (k : Nat) (t0 t1 : F32),
    f32IsFinite x = true → ((k * f32Unit : Nat) : Int) ≤ f32Scaled x →
    f32Scaled x < (((k + 1) * f32Unit : Nat) : Int) → k + 1 ≤ 65535 →
    f32IsFinite t0 = true → f32IsFinite t1 = true →
    f32Scaled (f32Sub x (toF32 k)) = f32Scaled x - ((k * f32Unit : Nat) : Int) ∧
      f32IsFinite (f32Mul (f32Sub f32One (f32Sub x (toF32 k))) t0) = true ∧
      f32IsFinite (f32Mul (f32Sub x (toF32 k)) t1) = true ∧
      f32IsNaN (blend x k t0 t1) = false

/-- R111 items 1 and 5: at an integer phase the blend equals entry k in value, and in bits too unless entry k is -0.0 and
the next entry has its sign bit clear, where it is +0.0. At the phase -0.0 (k = 0) it equals entry 0 in value, and the
entry -0.0 turns to +0.0 where the next entry has its sign bit set. -/
def Obligations.IntegerPhaseIsExactLookup : Prop :=
  ∀ (k : Nat) (t0 t1 : F32), k ≤ 65535 → f32IsFinite t0 = true → f32IsFinite t1 = true →
    blend (toF32 k) k t0 t1 = (if t0 = 0x80000000#32 ∧ f32Sign t1 = false then 0x00000000#32 else t0) ∧
    f32Scaled (blend (toF32 k) k t0 t1) = f32Scaled t0 ∧
    blend 0x80000000#32 0 t0 t1 = (if t0 = 0x80000000#32 ∧ f32Sign t1 = true then 0x00000000#32 else t0) ∧
    f32Scaled (blend 0x80000000#32 0 t0 t1) = f32Scaled t0

/-- R113: for table entries in [-1.0, 1.0], lerp returns a finite value in [-1.0, 1.0]. -/
def Obligations.LerpStaysInNominalRange : Prop :=
  ∀ (s : State) (x y : F32),
    (∀ (a : Nat) (v : F32), a < s.tableLen.toNat → Memory.read s.table a = some v →
      f32IsFinite v = true ∧ f32Magnitude v ≤ f32Unit) →
    lerp s x = .ok y → f32IsFinite y = true ∧ f32Magnitude y ≤ f32Unit

/-- R44, R51, R112: GET_SAMPLE does not depend on any entry at or above L: two states that agree but for those entries
answer the same sample and move to the same phase. -/
def Obligations.SampleIgnoresEntriesPastTheLength : Prop :=
  ∀ (s t : State) (m : Memory), 1 ≤ s.tableLen.toNat →
    (∀ a, a < s.tableLen.toNat → Memory.read m a = Memory.read s.table a) →
    exec .getSample s = .next t → exec .getSample { s with table := m } = .next { t with table := m }

/-! ### Sample source -/

/-- R110, R120: GET_SAMPLE in ACTIVE at a phase x in [0, L), with k = floor(x) and both entries written, answers the
blend at x and then advances the phase; nothing else changes. -/
def Obligations.GetSampleAnswersThenAdvances : Prop :=
  ∀ (s : State) (k : Nat) (t0 t1 : F32),
    s.mode = .active → f32IsFinite s.index = true →
    ((k * f32Unit : Nat) : Int) ≤ f32Scaled s.index → f32Scaled s.index < (((k + 1) * f32Unit : Nat) : Int) →
    k < s.tableLen.toNat →
    Memory.read s.table k = some t0 → Memory.read s.table ((k + 1) % s.tableLen.toNat) = some t1 →
    exec .getSample s = .next { s with
      index := wrapPhase s.params.wrapMode (f32Add s.index s.incr) s.tableLen
      response := some ⟨.ok,
        f32Add (f32Mul (f32Sub f32One (f32Sub s.index (toF32 k))) t0) (f32Mul (f32Sub s.index (toF32 k)) t1)⟩ }

/-- R120, R144: GET_SAMPLE in ACTIVE at a negative phase answers ERR_PHASE, sets S.FAULT and does not advance. -/
def Obligations.NegativePhaseAnswersErrPhase : Prop :=
  ∀ s : State, s.mode = .active → f32IsFinite s.index = true → f32Scaled s.index < 0 →
    exec .getSample s = .next { s with fault := true, response := some ⟨.errPhase, 0#32⟩ }

/-- R31, R110: a pull whose interpolation needs an entry not written since reset is the spec's model fault. -/
def Obligations.PullOfUnwrittenEntryFaults : Prop :=
  ∀ (s : State) (k : Nat),
    s.mode = .active → f32IsFinite s.index = true →
    ((k * f32Unit : Nat) : Int) ≤ f32Scaled s.index → f32Scaled s.index < (((k + 1) * f32Unit : Nat) : Int) →
    k < s.tableLen.toNat →
    Memory.written s.table k = false ∨ Memory.written s.table ((k + 1) % s.tableLen.toNat) = false →
    exec .getSample s = .fault .unwrittenTableRead

/-- R123: in a state a run can reach, ACTIVE with the table loaded and the phase not negative, every pull answers OK with
a sample that is not NaN. -/
def Obligations.EveryPullAnswersASample : Prop :=
  ∀ s : State, Inv s → s.mode = .active → 0 ≤ f32Scaled s.index →
    (∀ a, a < s.tableLen.toNat → Memory.written s.table a = true) →
    ∃ (t : State) (y : F32), exec .getSample s = .next t ∧ t.response = some ⟨.ok, y⟩ ∧ f32IsNaN y = false

/-- R124 (with S.INCR = 1.0): in a state a run can reach, at phase +0.0 with increment 1.0 and the table loaded, n pulls
(the expansion of PULL n) all answer OK, the k-th (from 0) with the value of entry k mod L: the entries in order, then the
same again. The phase is then n mod L. -/
def Obligations.UnitIncrementPlaysTheTablePeriodically : Prop :=
  ∀ (n : Nat) (s : State) (rest : List HostInput),
    Inv s → s.mode = .active → s.index = 0x00000000#32 → s.incr = 0x3F800000#32 →
    (∀ a, a < s.tableLen.toNat → Memory.written s.table a = true) →
    s.inputs = ((AsmLine.pull n).expand fun _ => []).map (fun i => .command (encode i)) ++ rest →
    ∃ (t : State) (seen : List Response),
      observe n s = .next (t, seen) ∧ t.index = toF32 (n % s.tableLen.toNat) ∧ t.inputs = rest ∧ seen.length = n ∧
      ∀ (k : Nat) (h : k < seen.length),
        seen[k].status = .ok ∧ f32IsFinite seen[k].rdata = true ∧
          ∃ v, Memory.read s.table (k % s.tableLen.toNat) = some v ∧ f32Scaled seen[k].rdata = f32Scaled v

/-- R163: SET_FREQ does not change the next sample, only the advance after it, which uses the new increment. -/
def Obligations.FrequencyChangeShowsAfterTheNextPull : Prop :=
  ∀ (s t u : State) (f : F32),
    exec (.setFreq f) s = .next t → t.response = some ⟨.ok, 0#32⟩ →
    exec .getSample s = .next u → (∃ y, u.response = some ⟨.ok, y⟩) →
    exec .getSample t = .next { t with
      index := wrapPhase s.params.wrapMode (f32Add s.index t.incr) s.tableLen, response := u.response }

/-- R121: GET_INFO in ACTIVE answers 1 channel, the rate unchanged, and "none" for duration and frame length; any other
selector answers ERR_RANGE; nothing else changes. -/
def Obligations.GetInfoAnswersTheMetadata : Prop :=
  ∀ (s : State) (sel : Nat), s.mode = .active →
    (sel = 0 → exec (.getInfo sel) s = .next { s with response := some ⟨.ok, 0x00000001#32⟩ }) ∧
    (sel = 1 → exec (.getInfo sel) s = .next { s with response := some ⟨.ok, s.sampleRate⟩ }) ∧
    (sel = 2 ∨ sel = 3 → exec (.getInfo sel) s = .next { s with response := some ⟨.ok, 0xFFFFFFFF#32⟩ }) ∧
    (4 ≤ sel → exec (.getInfo sel) s = .next { s with response := some ⟨.errRange, 0#32⟩ })

/-- R122: PEEK answers, in either mode, the phase, the increment, the rate, the zero-extended length and the STATUS word;
any other selector answers ERR_RANGE; nothing else changes. -/
def Obligations.PeekAnswersTheElement : Prop :=
  ∀ (s : State) (sel : Nat),
    (sel = 0 → exec (.peek sel) s = .next { s with response := some ⟨.ok, s.index⟩ }) ∧
    (sel = 1 → exec (.peek sel) s = .next { s with response := some ⟨.ok, s.incr⟩ }) ∧
    (sel = 2 → exec (.peek sel) s = .next { s with response := some ⟨.ok, s.sampleRate⟩ }) ∧
    (sel = 3 → exec (.peek sel) s = .next { s with response := some ⟨.ok, 0#16 ++ s.tableLen⟩ }) ∧
    (sel = 4 → exec (.peek sel) s = .next { s with response := some ⟨.ok, statusWord s⟩ }) ∧
    (5 ≤ sel → exec (.peek sel) s = .next { s with response := some ⟨.errRange, 0#32⟩ })

/-- R28: the STATUS word, bit by bit: it is what PEEK 4 answers, and its ACTIVE and FAULT bits are 0 after reset. -/
def Obligations.StatusWordLayout : Prop :=
  (∀ s : State,
    exec (.peek 4) s = .next { s with response := some ⟨.ok, statusWord s⟩ } ∧
    (statusWord s).getLsbD 0 = decide (s.mode = .active) ∧
    (statusWord s).getLsbD 1 = s.fault ∧
    (statusWord s).getLsbD 2 = decide (s.params.wrapMode = .fmod) ∧
    (∀ b, 3 ≤ b → b ≤ 15 → (statusWord s).getLsbD b = false) ∧
    (statusWord s).extractLsb' 16 16 = s.params.tableDepth) ∧
  (statusWord State.reset).getLsbD 0 = false ∧ (statusWord State.reset).getLsbD 1 = false

/-- R27 item 4, R120, R168: under EUCLIDEAN every run from a state that meets the invariant, of any length, that the
model does not stop, is clean. -/
def Obligations.EuclideanRunsAreClean : Prop :=
  ∀ (k : Nat) (s t : State) (seen : List Response), Inv s → s.params.wrapMode = .euclidean →
    observe k s = .next (t, seen) → CleanRun k s

/-! ### Binary32 (R8, R9, R10) -/

/-- R8: sums and differences of finite data are the exact value rounded with roundTiesToEven, with overflow to
infinity. -/
def Obligations.AdditionIsCorrectlyRounded : Prop :=
  ∀ x y : F32, f32IsFinite x = true → f32IsFinite y = true →
    RoundsTo (f32Scaled x + f32Scaled y) 1 (f32Add x y) ∧ RoundsTo (f32Scaled x - f32Scaled y) 1 (f32Sub x y)

/-- R8: a product of finite data is the exact value rounded with roundTiesToEven, and its sign bit, a zero's too, is the
exclusive or of the operands' sign bits. -/
def Obligations.MultiplicationIsCorrectlyRounded : Prop :=
  ∀ x y : F32, f32IsFinite x = true → f32IsFinite y = true →
    RoundsTo (f32Scaled x * f32Scaled y) f32Unit (f32Mul x y) ∧
      f32Sign (f32Mul x y) = (f32Sign x ^^ f32Sign y)

/-- R8: a quotient of finite data by a non-zero one is the exact value rounded with roundTiesToEven, and its sign bit, a
zero's too, is the exclusive or of the operands' sign bits. -/
def Obligations.DivisionIsCorrectlyRounded : Prop :=
  ∀ x y : F32, f32IsFinite x = true → f32IsFinite y = true → f32Magnitude y ≠ 0 →
    RoundsTo (f32Scaled x * f32Unit * (f32Scaled y).sign) (f32Magnitude y) (f32Div x y) ∧
      f32Sign (f32Div x y) = (f32Sign x ^^ f32Sign y)

/-- R8: the signs of zero sums under roundTiesToEven. -/
def Obligations.ZeroSumsHaveIeeeSigns : Prop :=
  (∀ x : F32, f32IsFinite x = true → f32Add x (f32Neg x) = 0x00000000#32) ∧
    f32Add 0x00000000#32 0x80000000#32 = 0x00000000#32 ∧
    f32Add 0x80000000#32 0x80000000#32 = 0x80000000#32

/-- R8: to_f32(n) is n rounded to nearest even, and exact up to 2^24. -/
def Obligations.IntegerConversionIsCorrectlyRounded : Prop :=
  ∀ n : Nat, RoundsTo ((n * f32Unit : Nat) : Int) 1 (toF32 n) ∧
    (n ≤ 2 ^ 24 → f32Scaled (toF32 n) = ((n * f32Unit : Nat) : Int))

/-- R9: fmod of finite x by finite non-zero y is the exact x - y * trunc(x/y), finite, with the sign bit of x, and smaller
than y in magnitude. -/
def Obligations.FmodIsExact : Prop :=
  ∀ x y : F32, f32IsFinite x = true → f32IsFinite y = true → f32Magnitude y ≠ 0 →
    f32IsFinite (f32Fmod x y) = true ∧
    f32Scaled (f32Fmod x y) = f32Scaled x - f32Scaled y * (f32Scaled x).tdiv (f32Scaled y) ∧
    f32Sign (f32Fmod x y) = f32Sign x ∧ f32Magnitude (f32Fmod x y) < f32Magnitude y

/-- R10: floor of a finite datum is the greatest integer not above it; floor(-0.0) = 0 and floor(-0.5) = -1; on a datum
that is not negative it is the truncation. -/
def Obligations.FloorIsTheGreatestIntegerBelow : Prop :=
  (∀ x : F32, f32IsFinite x = true →
    f32Floor x * (f32Unit : Int) ≤ f32Scaled x ∧
      (∀ n : Int, n * (f32Unit : Int) ≤ f32Scaled x → n ≤ f32Floor x) ∧
      (0 ≤ f32Scaled x → f32Floor x = (f32Scaled x).tdiv (f32Unit : Int))) ∧
    f32Floor 0x80000000#32 = 0 ∧ f32Floor 0xBF000000#32 = -1

/-- R7: the numeric comparisons of data that are not NaN, on finite values: below and equal as the values are, so
-0.0 == +0.0 and -0.0 < 0 is false. -/
def Obligations.ComparisonsAreNumeric : Prop :=
  ∀ x y : F32, f32IsFinite x = true → f32IsFinite y = true →
    f32Lt x y = decide (f32Scaled x < f32Scaled y) ∧ f32Eq x y = decide (f32Scaled x = f32Scaled y)
end

