-- ==== Sys2Proof/Laws/Rounding.lean ====
section
/-! SUPPORT. The laws of rounding (R8): what roundHalfEven and roundMagnitude can do, said once, so that no proof about
binary32 arithmetic unfolds them. -/

namespace Sys2Proof.Machine

/-! ### roundHalfEven -/

theorem roundHalfEven_err (n d : Nat) (hd : 0 < d) :
    2 * ((n : Int) - d * roundHalfEven n d) ≤ d ∧ -(d : Int) ≤ 2 * ((n : Int) - d * roundHalfEven n d) := by
  have hdm : (d : Int) * ((n / d : Nat) : Int) + ((n % d : Nat) : Int) = n := by exact_mod_cast Nat.div_add_mod n d
  have hlt : n % d < d := Nat.mod_lt _ hd
  unfold roundHalfEven
  split
  · constructor <;> (push_cast at *; omega)
  · split
    · push_cast at *; rw [mul_add]; constructor <;> omega
    · rcases Nat.mod_two_eq_zero_or_one (n / d) with h | h
      · rw [h]; push_cast at *; constructor <;> simp <;> omega
      · rw [h]; push_cast at *; rw [mul_add]; constructor <;> omega

theorem roundHalfEven_tie (n d : Nat) (hd : 0 < d)
    (h : 2 * |(n : Int) - d * roundHalfEven n d| = d) : roundHalfEven n d % 2 = 0 := by
  have hdm : (d : Int) * ((n / d : Nat) : Int) + ((n % d : Nat) : Int) = n := by exact_mod_cast Nat.div_add_mod n d
  have hlt : n % d < d := Nat.mod_lt _ hd
  unfold roundHalfEven at *
  split at h
  · exfalso; rw [abs_of_nonneg (by push_cast at *; omega)] at h; push_cast at *; omega
  · split at h
    · exfalso
      rw [abs_of_nonpos (by push_cast at *; rw [mul_add]; omega)] at h; push_cast at *; rw [mul_add] at h; omega
    · rw [if_neg ‹_›, if_neg ‹_›]; omega

theorem roundHalfEven_nearest (n d : Nat) (hd : 0 < d) (j : Int) :
    |(n : Int) - d * roundHalfEven n d| ≤ |(n : Int) - d * j| := by
  obtain ⟨h1, h2⟩ := roundHalfEven_err n d hd
  generalize (roundHalfEven n d : Int) = m at *
  rcases eq_or_ne j m with rfl | hne
  · exact le_rfl
  have hd' : (0 : Int) < d := by exact_mod_cast hd
  rcases lt_or_gt_of_ne hne with h | h
  · have : (d : Int) * j ≤ d * m - d := by nlinarith
    rw [abs_le]; rw [abs_of_nonneg (by omega : (0 : Int) ≤ n - d * j)]; constructor <;> omega
  · have : (d : Int) * m + d ≤ d * j := by nlinarith
    rw [abs_le]; rw [abs_of_nonpos (by omega : (n : Int) - d * j ≤ 0)]; constructor <;> omega

/-- A second nearest integer exists only at an exact tie, and then the even one was taken. -/
theorem roundHalfEven_unique (n d : Nat) (hd : 0 < d) (j : Int) (hj : j ≠ roundHalfEven n d)
    (h : |(n : Int) - d * roundHalfEven n d| = |(n : Int) - d * j|) : roundHalfEven n d % 2 = 0 := by
  apply roundHalfEven_tie n d hd
  obtain ⟨h1, h2⟩ := roundHalfEven_err n d hd
  generalize (roundHalfEven n d : Int) = m at *
  have hd' : (0 : Int) < d := by exact_mod_cast hd
  rcases lt_or_gt_of_ne hj with hlt | hlt
  · have : (d : Int) * j ≤ d * m - d := by nlinarith
    rw [abs_of_nonneg (by omega : (0 : Int) ≤ n - d * j)] at h
    rcases abs_cases ((n : Int) - d * m) with ⟨e, _⟩ | ⟨e, _⟩ <;> omega
  · have : (d : Int) * m + d ≤ d * j := by nlinarith
    rw [abs_of_nonpos (by omega : (n : Int) - d * j ≤ 0)] at h
    rcases abs_cases ((n : Int) - d * m) with ⟨e, _⟩ | ⟨e, _⟩ <;> omega

theorem roundHalfEven_mul (q d : Nat) (hd : 0 < d) : roundHalfEven (q * d) d = q := by
  unfold roundHalfEven; simp [hd]

theorem roundHalfEven_mono (n n' d : Nat) (hd : 0 < d) (h : n ≤ n') : roundHalfEven n d ≤ roundHalfEven n' d := by
  by_contra hc
  have hc' : (roundHalfEven n' d : Int) + 1 ≤ roundHalfEven n d := by exact_mod_cast Nat.lt_of_not_le hc
  obtain ⟨h1, h2⟩ := roundHalfEven_err n d hd
  obtain ⟨h3, h4⟩ := roundHalfEven_err n' d hd
  have hd' : (0 : Int) < d := by exact_mod_cast hd
  have hn : (n : Int) ≤ n' := by exact_mod_cast h
  have : (d : Int) * roundHalfEven n' d + d ≤ d * roundHalfEven n d := by nlinarith
  have e1 : 2 * |(n : Int) - d * roundHalfEven n d| = d := by
    rw [abs_of_nonpos (by omega)]; omega
  have e2 : 2 * |(n' : Int) - d * roundHalfEven n' d| = d := by
    rw [abs_of_nonneg (by omega)]; omega
  have p1 := roundHalfEven_tie n d hd e1
  have p2 := roundHalfEven_tie n' d hd e2
  have : (d : Int) * (roundHalfEven n' d + 2) ≤ d * roundHalfEven n d := by
    apply mul_le_mul_of_nonneg_left _ hd'.le; omega
  rw [mul_add] at this; omega

/-! ### The quantum -/

theorem div_lt_quantum (n d : Nat) : n / d < 2 ^ 24 * 2 ^ quantumExponent n d := by
  unfold quantumExponent
  rw [← pow_add]
  calc n / d < 2 ^ ((n / d).log2 + 1) := Nat.lt_log2_self
    _ ≤ 2 ^ (24 + ((n / d).log2 - 23)) := Nat.pow_le_pow_right (by norm_num) (by omega)

theorem quantum_le_div (n d : Nat) (hk : 0 < quantumExponent n d) : 2 ^ 23 * 2 ^ quantumExponent n d ≤ n / d := by
  unfold quantumExponent at *
  rw [← pow_add, show 23 + ((n / d).log2 - 23) = (n / d).log2 by omega]
  apply Nat.log2_self_le
  intro h; rw [h] at hk; simp at hk

theorem lt_quantum (n d : Nat) (hd : 0 < d) : n < (d * 2 ^ quantumExponent n d) * 2 ^ 24 := by
  have := div_lt_quantum n d
  rw [Nat.div_lt_iff_lt_mul hd] at this
  calc n < _ := this
    _ = _ := by ring

theorem quantum_le (n d : Nat) (hd : 0 < d) (hk : 0 < quantumExponent n d) :
    (d * 2 ^ quantumExponent n d) * 2 ^ 23 ≤ n := by
  have := quantum_le_div n d hk
  rw [Nat.le_div_iff_mul_le hd] at this
  calc _ = _ := by ring
    _ ≤ n := this

/-- The rounded significand (R8). -/
def significand (n d : Nat) : Nat := roundHalfEven n (d * 2 ^ quantumExponent n d)

theorem significand_le (n d : Nat) (hd : 0 < d) : significand n d ≤ 2 ^ 24 := by
  have h := lt_quantum n d hd
  have hD : 0 < d * 2 ^ quantumExponent n d := by positivity
  calc significand n d ≤ roundHalfEven (2 ^ 24 * (d * 2 ^ quantumExponent n d)) (d * 2 ^ quantumExponent n d) :=
        roundHalfEven_mono _ _ _ hD (by rw [mul_comm]; exact h.le)
    _ = 2 ^ 24 := roundHalfEven_mul _ _ hD

theorem le_significand (n d : Nat) (hd : 0 < d) (hk : 0 < quantumExponent n d) : 2 ^ 23 ≤ significand n d := by
  have h := quantum_le n d hd hk
  have hD : 0 < d * 2 ^ quantumExponent n d := by positivity
  calc 2 ^ 23 = roundHalfEven (2 ^ 23 * (d * 2 ^ quantumExponent n d)) (d * 2 ^ quantumExponent n d) :=
        (roundHalfEven_mul _ _ hD).symm
    _ ≤ _ := roundHalfEven_mono _ _ _ hD (by rw [mul_comm]; exact h)

/-! ### Bits and magnitudes -/

/-- The magnitude, in units of 2^-149, that exponent and fraction bits `p` stand for. -/
def bitsMagnitude (p : Nat) : Nat :=
  if p / 2 ^ 23 = 0 then p % 2 ^ 23 else (2 ^ 23 + p % 2 ^ 23) * 2 ^ (p / 2 ^ 23 - 1)

theorem bitsMagnitude_significand (k m : Nat) (hm : m ≤ 2 ^ 24) (hk : 0 < k → 2 ^ 23 ≤ m) :
    bitsMagnitude (k * 2 ^ 23 + m) = m * 2 ^ k := by
  unfold bitsMagnitude
  have e1 : (k * 2 ^ 23 + m) / 2 ^ 23 = k + m / 2 ^ 23 := by omega
  have e2 : (k * 2 ^ 23 + m) % 2 ^ 23 = m % 2 ^ 23 := by omega
  rw [e1, e2]
  rcases Nat.lt_or_ge m (2 ^ 23) with h | h
  · have : k = 0 := by by_contra h'; exact absurd (hk (by omega)) (by omega)
    subst this
    rw [if_pos (by omega)]; simp; omega
  · rcases Nat.lt_or_ge m (2 ^ 24) with h' | h'
    · have e3 : m / 2 ^ 23 = 1 := by omega
      rw [e3, if_neg (by omega)]
      have : 2 ^ 23 + m % 2 ^ 23 = m := by omega
      rw [this]; simp
    · have e3 : m = 2 ^ 24 := by omega
      subst e3
      norm_num
      rw [pow_succ]; ring

/-- Every 31-bit magnitude is a significand below 2^24 at an exponent. -/
theorem bitsMagnitude_form (p : Nat) :
    ∃ k m, bitsMagnitude p = m * 2 ^ k ∧ m < 2 ^ 24 ∧ (0 < k → 2 ^ 23 ≤ m) ∧ p = k * 2 ^ 23 + m := by
  unfold bitsMagnitude
  split
  · exact ⟨0, p % 2 ^ 23, by simp, by omega, by omega, by omega⟩
  · exact ⟨p / 2 ^ 23 - 1, 2 ^ 23 + p % 2 ^ 23, rfl, by omega, by omega, by omega⟩

theorem roundMagnitude_eq (n d : Nat) :
    roundMagnitude n d = min (quantumExponent n d * 2 ^ 23 + significand n d) infinityBits := rfl

/-- The value of a rounding that does not overflow. -/
theorem bitsMagnitude_round (n d : Nat) (hd : 0 < d) (h : roundMagnitude n d < infinityBits) :
    bitsMagnitude (roundMagnitude n d) = significand n d * 2 ^ quantumExponent n d := by
  rw [roundMagnitude_eq] at *
  rw [min_eq_left (by omega)]
  exact bitsMagnitude_significand _ _ (significand_le n d hd) (le_significand n d hd)

/-- Rounding is to the nearest magnitude (R8). -/
theorem roundMagnitude_nearest (n d : Nat) (hd : 0 < d) (h : roundMagnitude n d < infinityBits) (p : Nat) :
    |(n : Int) - d * bitsMagnitude (roundMagnitude n d)| ≤ |(n : Int) - d * bitsMagnitude p| ∧
      (|(n : Int) - d * bitsMagnitude (roundMagnitude n d)| = |(n : Int) - d * bitsMagnitude p| →
        bitsMagnitude p ≠ bitsMagnitude (roundMagnitude n d) → roundMagnitude n d % 2 = 0) := by
  have hpar : roundMagnitude n d % 2 = significand n d % 2 := by
    rw [roundMagnitude_eq] at *; rw [min_eq_left (by omega)]; omega
  rw [bitsMagnitude_round n d hd h, hpar]
  obtain ⟨kz, mz, hz, hlt, hge, -⟩ := bitsMagnitude_form p
  rw [hz]
  set k := quantumExponent n d with hkdef
  have hD : 0 < d * 2 ^ k := by positivity
  have hV : (d : Int) * ((significand n d * 2 ^ k : Nat) : Int) = ((d * 2 ^ k : Nat) : Int) * significand n d := by
    push_cast; ring
  rw [hV]
  rcases Nat.lt_or_ge kz k with hlo | hhi
  · have hn := quantum_le n d hd (by omega)
    have hZ : mz * 2 ^ kz < 2 ^ 23 * 2 ^ k := by
      calc mz * 2 ^ kz < 2 ^ 24 * 2 ^ kz := Nat.mul_lt_mul_of_pos_right hlt (by positivity)
        _ = 2 ^ 23 * 2 ^ (kz + 1) := by ring
        _ ≤ 2 ^ 23 * 2 ^ k := Nat.mul_le_mul_left _ (Nat.pow_le_pow_right (by norm_num) hlo)
    have hnear := roundHalfEven_nearest n _ hD (2 ^ 23 : Nat)
    have h1 : ((d * 2 ^ k : Nat) : Int) * ((2 ^ 23 : Nat) : Int) ≤ n := by exact_mod_cast hn
    have h2 : (d : Int) * ((mz * 2 ^ kz : Nat) : Int) < ((d * 2 ^ k : Nat) : Int) * ((2 ^ 23 : Nat) : Int) := by
      have : d * (mz * 2 ^ kz) < d * 2 ^ k * 2 ^ 23 := by
        calc d * (mz * 2 ^ kz) < d * (2 ^ 23 * 2 ^ k) := Nat.mul_lt_mul_of_pos_left hZ hd
          _ = _ := by ring
      exact_mod_cast this
    rw [abs_of_nonneg (by omega : (0 : Int) ≤ n - ((d * 2 ^ k : Nat) : Int) * ((2 ^ 23 : Nat) : Int))] at hnear
    rw [abs_of_nonneg (by omega : (0 : Int) ≤ n - (d : Int) * ((mz * 2 ^ kz : Nat) : Int))]
    change |(n : Int) - ((d * 2 ^ k : Nat) : Int) * significand n d| ≤ _ at hnear
    constructor
    · omega
    · intro he; omega
  · have hZ : (d : Int) * ((mz * 2 ^ kz : Nat) : Int) = ((d * 2 ^ k : Nat) : Int) * ((mz * 2 ^ (kz - k) : Nat) : Int) := by
      have : d * (mz * 2 ^ kz) = d * 2 ^ k * (mz * 2 ^ (kz - k)) := by
        rw [show 2 ^ kz = 2 ^ k * 2 ^ (kz - k) by rw [← pow_add]; congr 1; omega]; ring
      exact_mod_cast this
    rw [hZ]
    refine ⟨roundHalfEven_nearest n _ hD _, fun he hne => roundHalfEven_unique n _ hD _ ?_ he⟩
    intro hc
    apply hne
    have hc' : mz * 2 ^ (kz - k) = significand n d := by exact_mod_cast hc
    rw [← hc', show 2 ^ kz = 2 ^ (kz - k) * 2 ^ k by rw [← pow_add]; congr 1; omega]; ring

theorem two_pow_252 : (2 : Nat) ^ 253 = 2 * 2 ^ 252 := by rw [pow_succ]; ring

theorem le_log2_of_pow_le (m k : Nat) (h : 2 ^ k ≤ m) : k ≤ m.log2 :=
  (Nat.le_log2 (ne_of_gt (lt_of_lt_of_le (Nat.pow_pos two_pos) h))).mpr h

theorem log2_lt_of_lt_pow (m k : Nat) (h0 : 0 < m) (h : m < 2 ^ k) : m.log2 < k :=
  (Nat.log2_lt (Nat.ne_of_gt h0)).mpr h

theorem le_overflowBound : 2 ^ (24 + 252) ≤ overflowBound := by
  unfold overflowBound
  rw [pow_add]
  exact Nat.mul_le_mul_right _ (by norm_num)

theorem overflowBound_lt : overflowBound < 2 ^ (25 + 252) := by
  unfold overflowBound
  rw [pow_add]
  exact Nat.mul_lt_mul_of_pos_right (by norm_num) (by positivity)

theorem roundHalfEven_lt (n D : Nat) (hD : 0 < D) (h : 2 * n < D * (2 ^ 25 - 1)) : roundHalfEven n D < 2 ^ 24 := by
  have hn := roundHalfEven_err n D hD
  by_contra hc
  have hc : (2 : Int) ^ 24 ≤ roundHalfEven n D := by exact_mod_cast Nat.le_of_not_lt hc
  have hD' : (0 : Int) < D := by exact_mod_cast hD
  norm_num at h
  have h' : (2 : Int) * n < D * 33554431 := by exact_mod_cast h
  have : (D : Int) * 2 ^ 24 ≤ D * roundHalfEven n D := mul_le_mul_of_nonneg_left hc hD'.le
  norm_num at *; omega

/-- Rounding overflows exactly from half-way past the largest finite magnitude (R8). -/
theorem roundMagnitude_lt (n d : Nat) (hd : 0 < d) : roundMagnitude n d < infinityBits ↔ n < d * overflowBound := by
  have hm := significand_le n d hd
  have hm' := le_significand n d hd
  constructor
  · intro h
    by_contra hc
    have hc := Nat.le_of_not_lt hc
    have hq : overflowBound ≤ n / d := by rw [Nat.le_div_iff_mul_le hd, mul_comm]; exact hc
    have hq' := le_trans le_overflowBound hq
    have hlog : 24 + 252 ≤ (n / d).log2 := le_log2_of_pow_le _ _ hq'
    have hk : 253 ≤ quantumExponent n d := by unfold quantumExponent; omega
    have hm2 := hm' (by omega)
    rw [roundMagnitude_eq] at h
    have hp : quantumExponent n d * 2 ^ 23 + significand n d < infinityBits := by omega
    unfold infinityBits at hp
    have hk3 : quantumExponent n d = 253 := by omega
    have h24 : 2 ^ 24 ≤ significand n d := by
      unfold significand
      rw [hk3]
      have hD : 0 < d * 2 ^ 253 := by positivity
      have : roundHalfEven (d * overflowBound) (d * 2 ^ 253) = 2 ^ 24 := by
        have e : d * overflowBound = d * 2 ^ 252 + (d * 2 ^ 253) * (2 ^ 24 - 1) := by
          unfold overflowBound; rw [two_pow_252]; ring
        have hlt : d * 2 ^ 252 < d * 2 ^ 253 :=
          Nat.mul_lt_mul_of_pos_left (Nat.pow_lt_pow_right (by norm_num) (by norm_num)) hd
        have e1 : d * overflowBound / (d * 2 ^ 253) = 2 ^ 24 - 1 := by
          rw [e, Nat.add_mul_div_left _ _ hD, Nat.div_eq_of_lt hlt]; simp
        have e2 : d * overflowBound % (d * 2 ^ 253) = d * 2 ^ 252 := by
          rw [e, Nat.add_mul_mod_self_left, Nat.mod_eq_of_lt hlt]
        have e3 : 2 * (d * 2 ^ 252) = d * 2 ^ 253 := by rw [two_pow_252]; ring
        unfold roundHalfEven
        rw [e1, e2, e3]; simp
      rw [← this]
      exact roundHalfEven_mono _ _ _ hD hc
    rw [hk3] at hp; omega
  · intro h
    rw [roundMagnitude_eq]
    apply lt_of_le_of_lt (min_le_left _ _)
    have hq : n / d < overflowBound := by rw [Nat.div_lt_iff_lt_mul hd, mul_comm]; exact h
    have hlog : (n / d).log2 < 25 + 252 := by
      rcases Nat.eq_zero_or_pos (n / d) with h0 | h0
      · rw [h0]; simp
      · exact log2_lt_of_lt_pow _ _ h0 (lt_trans hq overflowBound_lt)
    have hk : quantumExponent n d ≤ 253 := by unfold quantumExponent; omega
    unfold infinityBits
    rcases Nat.lt_or_ge (quantumExponent n d) 253 with h' | h'
    · omega
    · have hk3 : quantumExponent n d = 253 := by omega
      have : significand n d < 2 ^ 24 := by
        have e : 2 * (d * overflowBound) = (d * 2 ^ 253) * (2 ^ 25 - 1) := by
          unfold overflowBound; rw [two_pow_252]; ring
        unfold significand
        rw [hk3]
        apply roundHalfEven_lt _ _ (by positivity)
        rw [← e]; exact Nat.mul_lt_mul_of_pos_left h (by norm_num)
      rw [hk3]; omega

theorem bitsMagnitude_lt_overflow (p : Nat) (hp : p < infinityBits) : bitsMagnitude p < overflowBound := by
  obtain ⟨k, m, hz, hlt, hge, hpe⟩ := bitsMagnitude_form p
  rw [hz]
  unfold infinityBits at hp
  have hk : k ≤ 253 := by
    by_contra hc
    have := hge (by omega)
    omega
  calc m * 2 ^ k ≤ (2 ^ 24 - 1) * 2 ^ 253 := Nat.mul_le_mul (by omega) (Nat.pow_le_pow_right (by norm_num) hk)
    _ < overflowBound := by unfold overflowBound; norm_num

/-- A representable magnitude rounds to itself (R8). -/
theorem roundMagnitude_exact (p d : Nat) (hd : 0 < d) (hp : p < infinityBits) :
    roundMagnitude (d * bitsMagnitude p) d < infinityBits ∧
      bitsMagnitude (roundMagnitude (d * bitsMagnitude p) d) = bitsMagnitude p := by
  have h : roundMagnitude (d * bitsMagnitude p) d < infinityBits := by
    rw [roundMagnitude_lt _ _ hd]
    exact Nat.mul_lt_mul_of_pos_left (bitsMagnitude_lt_overflow p hp) hd
  refine ⟨h, ?_⟩
  have := (roundMagnitude_nearest _ d hd h p).1
  push_cast at this
  rw [sub_self, abs_zero] at this
  have h0 := abs_eq_zero.mp (le_antisymm this (abs_nonneg _))
  have hd' : (d : Int) ≠ 0 := by exact_mod_cast hd.ne'
  have h1 : (d : Int) * (bitsMagnitude p - bitsMagnitude (roundMagnitude (d * bitsMagnitude p) d)) = 0 := by
    rw [mul_sub]; exact h0
  have := (mul_eq_zero.mp h1).resolve_left hd'
  have h3 : (bitsMagnitude (roundMagnitude (d * bitsMagnitude p) d) : Int) = bitsMagnitude p := by omega
  exact_mod_cast h3

/-- Rounding does not pass a representable magnitude from below. -/
theorem round_le_of_le (n d p : Nat) (hd : 0 < d) (hp : p < infinityBits) (h : n ≤ d * bitsMagnitude p) :
    roundMagnitude n d < infinityBits ∧ bitsMagnitude (roundMagnitude n d) ≤ bitsMagnitude p := by
  have hlt : roundMagnitude n d < infinityBits := by
    rw [roundMagnitude_lt _ _ hd]
    exact lt_of_le_of_lt h (Nat.mul_lt_mul_of_pos_left (bitsMagnitude_lt_overflow p hp) hd)
  refine ⟨hlt, ?_⟩
  have hn := (roundMagnitude_nearest n d hd hlt p).1
  by_contra hc
  have h1 : d * bitsMagnitude p < d * bitsMagnitude (roundMagnitude n d) :=
    Nat.mul_lt_mul_of_pos_left (Nat.lt_of_not_le hc) hd
  have h1' : (d : Int) * bitsMagnitude p < d * bitsMagnitude (roundMagnitude n d) := by exact_mod_cast h1
  have h' : (n : Int) ≤ d * bitsMagnitude p := by exact_mod_cast h
  rw [abs_of_nonpos (by omega), abs_of_nonpos (by omega)] at hn
  omega

/-- Rounding does not pass a representable magnitude from above. -/
theorem le_round_of_le (n d p : Nat) (hd : 0 < d) (hlt : roundMagnitude n d < infinityBits)
    (h : d * bitsMagnitude p ≤ n) : bitsMagnitude p ≤ bitsMagnitude (roundMagnitude n d) := by
  have hn := (roundMagnitude_nearest n d hd hlt p).1
  by_contra hc
  have h1 : d * bitsMagnitude (roundMagnitude n d) < d * bitsMagnitude p :=
    Nat.mul_lt_mul_of_pos_left (Nat.lt_of_not_le hc) hd
  have h1' : (d : Int) * bitsMagnitude (roundMagnitude n d) < d * bitsMagnitude p := by exact_mod_cast h1
  have h' : (d : Int) * bitsMagnitude p ≤ n := by exact_mod_cast h
  rw [abs_of_nonneg (by omega), abs_of_nonneg (by omega)] at hn
  omega

theorem roundMagnitude_le_inf (n d : Nat) : roundMagnitude n d ≤ infinityBits := min_le_right _ _

/-- A magnitude that is an integer below 2^24 at some exponent is representable. -/
theorem exists_bits_of_form (k m : Nat) (hm : m < 2 ^ 24) (h : m * 2 ^ k < overflowBound) :
    ∃ p, p < infinityBits ∧ bitsMagnitude p = m * 2 ^ k := by
  refine ⟨roundMagnitude (m * 2 ^ k) 1, (roundMagnitude_lt _ _ one_pos).mpr (by simpa using h), ?_⟩
  have hlt := (roundMagnitude_lt (m * 2 ^ k) 1 one_pos).mpr (by simpa using h)
  rw [bitsMagnitude_round _ _ one_pos hlt]
  set q := quantumExponent (m * 2 ^ k) 1 with hq
  have hqk : q ≤ k := by
    rcases Nat.eq_zero_or_pos q with h0 | h0
    · omega
    · have h1 := quantum_le (m * 2 ^ k) 1 one_pos (by omega)
      rw [← hq] at h1
      by_contra hc
      have : 2 ^ (k + 1) ≤ 2 ^ q := Nat.pow_le_pow_right (by norm_num) (by omega)
      have h2 : m * 2 ^ k < 2 ^ 24 * 2 ^ k := Nat.mul_lt_mul_of_pos_right hm (by positivity)
      rw [pow_succ] at this
      omega
  have he : m * 2 ^ k = (m * 2 ^ (k - q)) * (1 * 2 ^ q) := by
    rw [one_mul, mul_assoc, ← pow_add]; congr 2; omega
  have : significand (m * 2 ^ k) 1 = m * 2 ^ (k - q) := by
    unfold significand; rw [← hq]
    conv_lhs => rw [he]
    exact roundHalfEven_mul _ _ (by positivity)
  rw [this]; rw [mul_assoc, ← pow_add]; congr 2; omega

end Sys2Proof.Machine
end

