-- ==== Sys2Proof/Laws/Binary32.lean ====
section
/-! SUPPORT. The laws of binary32 data (R7): a datum is its sign and its 31 other bits, and its magnitude is a function
of those bits. -/

namespace Sys2Proof.Machine

/-! ### Data as sign and bits -/

/-- The exponent and fraction bits of a datum. -/
def f32Bits (x : F32) : Nat := x.toNat % 2 ^ 31

theorem f32Bits_lt (x : F32) : f32Bits x < 2 ^ 31 := Nat.mod_lt _ (by norm_num)

theorem f32Exponent_eq (x : F32) : f32Exponent x = f32Bits x / 2 ^ 23 := by
  have := x.isLt
  simp only [f32Exponent, f32Bits, BitVec.extractLsb'_toNat, Nat.shiftRight_eq_div_pow]; omega

theorem f32Fraction_eq (x : F32) : f32Fraction x = f32Bits x % 2 ^ 23 := by
  simp only [f32Fraction, f32Bits, BitVec.extractLsb'_toNat, Nat.shiftRight_eq_div_pow]; omega

theorem f32Sign_eq (x : F32) : f32Sign x = decide (2 ^ 31 ≤ x.toNat) := by
  simp [f32Sign, BitVec.msb_eq_decide]

theorem f32Magnitude_eq (x : F32) : f32Magnitude x = bitsMagnitude (f32Bits x) := by
  simp only [f32Magnitude, bitsMagnitude, f32Exponent_eq, f32Fraction_eq]

theorem f32IsFinite_iff (x : F32) : f32IsFinite x = true ↔ f32Bits x < infinityBits := by
  have := f32Bits_lt x
  simp only [f32IsFinite, f32Exponent_eq, infinityBits, bne_iff_ne, ne_eq]; omega

theorem f32IsNaN_of_finite (x : F32) (h : f32IsFinite x = true) : f32IsNaN x = false := by
  simp_all [f32IsFinite, f32IsNaN]

theorem f32IsInf_of_finite (x : F32) (h : f32IsFinite x = true) : f32IsInf x = false := by
  simp_all [f32IsFinite, f32IsInf]

theorem f32Pack_toNat (neg : Bool) (p : Nat) (hp : p < 2 ^ 31) :
    (f32Pack neg p).toNat = (if neg then 2 ^ 31 else 0) + p := by
  simp only [f32Pack, BitVec.toNat_append, BitVec.toNat_ofNat, BitVec.toNat_ofBool, Nat.mod_eq_of_lt hp,
    Nat.shiftLeft_eq]
  rw [mul_comm, ← Nat.two_pow_add_eq_or_of_lt hp]
  cases neg <;> simp

@[simp] theorem f32Bits_pack (neg : Bool) (p : Nat) (hp : p < 2 ^ 31) : f32Bits (f32Pack neg p) = p := by
  rw [f32Bits, f32Pack_toNat _ _ hp]; cases neg <;> simp <;> omega

@[simp] theorem f32Sign_pack (neg : Bool) (p : Nat) (hp : p < 2 ^ 31) : f32Sign (f32Pack neg p) = neg := by
  rw [f32Sign_eq, f32Pack_toNat _ _ hp]; cases neg <;> (simp; try omega)

theorem f32_ext (x y : F32) (hs : f32Sign x = f32Sign y) (hb : f32Bits x = f32Bits y) : x = y := by
  have hx := x.isLt
  have hy := y.isLt
  rw [f32Sign_eq, f32Sign_eq] at hs
  apply BitVec.eq_of_toNat_eq
  simp only [f32Bits] at hb
  simp only [decide_eq_decide] at hs
  omega

theorem f32Bits_round (neg : Bool) (n d : Nat) : f32Bits (f32Round neg n d) = roundMagnitude n d :=
  f32Bits_pack _ _ (lt_of_le_of_lt (roundMagnitude_le_inf n d) (by unfold infinityBits; norm_num))

theorem f32Sign_round (neg : Bool) (n d : Nat) : f32Sign (f32Round neg n d) = neg :=
  f32Sign_pack _ _ (lt_of_le_of_lt (roundMagnitude_le_inf n d) (by unfold infinityBits; norm_num))

theorem f32IsFinite_round (neg : Bool) (n d : Nat) (hd : 0 < d) :
    f32IsFinite (f32Round neg n d) = true ↔ n < d * overflowBound := by
  rw [f32IsFinite_iff, f32Bits_round, roundMagnitude_lt _ _ hd]

theorem f32Magnitude_round (neg : Bool) (n d : Nat) :
    f32Magnitude (f32Round neg n d) = bitsMagnitude (roundMagnitude n d) := by
  rw [f32Magnitude_eq, f32Bits_round]

theorem f32Magnitude_lt_overflow (x : F32) (h : f32IsFinite x = true) : f32Magnitude x < overflowBound := by
  rw [f32Magnitude_eq]; exact bitsMagnitude_lt_overflow _ ((f32IsFinite_iff x).mp h)

theorem f32Scaled_natAbs (x : F32) : (f32Scaled x).natAbs = f32Magnitude x := by
  unfold f32Scaled; split <;> simp

end Sys2Proof.Machine
end

