-- ==== Sys2Proof/Laws/Arithmetic.lean ====
section
/-! SUPPORT. One lemma per arithmetic operation, saying everything it can do with finite operands (R8, R9), and the small
facts about to_f32 that the accumulator and the interpolator rest on. -/

namespace Sys2Proof.Machine


theorem f32Unit_pos : 0 < f32Unit := by unfold f32Unit; positivity

/-- A finite value is its sign times its magnitude. -/
theorem f32Scaled_of (x : F32) : f32Scaled x = (if f32Sign x then -1 else 1) * (f32Magnitude x : Int) := by
  unfold f32Scaled; split <;> simp

/-- The exact value of a rounding. -/
theorem f32Scaled_round (neg : Bool) (n d : Nat) :
    f32Scaled (f32Round neg n d) = (if neg then -1 else 1) * (bitsMagnitude (roundMagnitude n d) : Int) := by
  rw [f32Scaled_of, f32Sign_round, f32Magnitude_round]

/-- The last fraction bit of a rounding is the parity of its bits. -/
theorem f32Fraction_round (neg : Bool) (n d : Nat) : f32Fraction (f32Round neg n d) % 2 = roundMagnitude n d % 2 := by
  rw [f32Fraction_eq, f32Bits_round]; omega

/-- `f32Round` of the magnitude of `n` with the sign of `n` is `n / d` rounded with roundTiesToEven (R8). -/
theorem roundsTo_round (n : Int) (d : Nat) (hd : 0 < d) (neg : Bool) (hneg : n ≠ 0 → neg = decide (n < 0)) :
    RoundsTo n d (f32Round neg n.natAbs d) := by
  constructor
  · intro h
    refine ⟨(f32IsFinite_round _ _ _ hd).mpr h, fun z hz => ?_⟩
    have hlt := (roundMagnitude_lt n.natAbs d hd).mpr h
    obtain ⟨h1, h2⟩ := roundMagnitude_nearest n.natAbs d hd hlt (f32Bits z)
    have h0 := (roundMagnitude_nearest n.natAbs d hd hlt 0)
    rw [show bitsMagnitude 0 = 0 from rfl] at h0
    rw [f32Scaled_round, f32Scaled_of z, f32Magnitude_eq, f32Fraction_round]
    generalize bitsMagnitude (roundMagnitude n.natAbs d) = V at *
    generalize bitsMagnitude (f32Bits z) = Z at *
    generalize roundMagnitude n.natAbs d % 2 = par at *
    have hd' : (0 : Int) < d := by exact_mod_cast hd
    have hV : (0 : Int) ≤ (d : Int) * V := by positivity
    have hZ : (0 : Int) ≤ (d : Int) * Z := by positivity
    rcases eq_or_ne n 0 with rfl | hn
    · have h := h0.1
      simp only [Int.natAbs_zero, Nat.cast_zero, mul_zero, sub_zero, zero_sub, abs_neg, abs_zero] at h
      have hV0 : V = 0 := by
        have := (mul_eq_zero.mp (abs_eq_zero.mp (le_antisymm h (abs_nonneg _)))).resolve_left hd'.ne'
        exact_mod_cast this
      subst hV0
      rw [Nat.cast_zero, mul_zero, mul_zero, sub_zero, abs_zero]
      refine ⟨abs_nonneg _, fun he hne => absurd ?_ hne⟩
      have h1 := abs_eq_zero.mp he.symm
      rw [zero_sub, neg_eq_zero] at h1
      exact (mul_eq_zero.mp h1).resolve_left hd'.ne'
    · have hs := hneg hn
      obtain ⟨h0a, h0b⟩ := h0
      rcases lt_or_gt_of_ne hn with hlt' | hgt
      · have e : (n.natAbs : Int) = -n := by omega
        have hs : neg = true := by simp [hs, hlt']
        subst hs
        rw [e] at h1 h2 h0a h0b
        simp only [if_true]
        have a1 : |n - (d : Int) * (-1 * (V : Int))| = |-n - (d : Int) * V| := by rw [← abs_neg]; congr 1; ring
        rw [a1]
        split
        · have a2 : |n - (d : Int) * (-1 * (Z : Int))| = |-n - (d : Int) * Z| := by rw [← abs_neg]; congr 1; ring
          rw [a2]
          refine ⟨h1, fun he hne => h2 he ?_⟩
          intro hc; apply hne; rw [hc]
        · have a2 : |n - (d : Int) * (1 * (Z : Int))| = -n + (d : Int) * Z := by
            rw [abs_of_nonpos (by linarith)]; ring
          have a3 : |-n - (d : Int) * ((0 : Nat) : Int)| = -n := by
            rw [Nat.cast_zero, mul_zero, sub_zero]; exact abs_of_nonneg (by omega)
          rw [a3] at h0a h0b
          rw [a2]
          refine ⟨by linarith, fun he hne => ?_⟩
          have hz0 : (d : Int) * Z = 0 := by linarith
          have : (Z : Int) = 0 := by rcases mul_eq_zero.mp hz0 with h | h <;> omega
          refine h0b (by linarith) ?_
          intro hc; apply hne; rw [this]; rw [← hc]; simp
      · have e : (n.natAbs : Int) = n := by omega
        have hs : neg = false := by simp [hs]; omega
        subst hs
        rw [e] at h1 h2 h0a h0b
        simp only [Bool.false_eq_true, if_false, one_mul]
        split
        · have a2 : |n - (d : Int) * (-1 * (Z : Int))| = n + (d : Int) * Z := by
            rw [abs_of_nonneg (by linarith)]; ring
          have a3 : |n - (d : Int) * ((0 : Nat) : Int)| = n := by
            rw [Nat.cast_zero, mul_zero, sub_zero]; exact abs_of_nonneg (by omega)
          rw [a3] at h0a h0b
          rw [a2]
          refine ⟨by linarith, fun he hne => ?_⟩
          have hz0 : (d : Int) * Z = 0 := by linarith
          have : (Z : Int) = 0 := by rcases mul_eq_zero.mp hz0 with h | h <;> omega
          refine h0b (by linarith) ?_
          intro hc; apply hne; rw [this]; rw [← hc]; simp
        · rw [one_mul]
          refine ⟨h1, fun he hne => h2 he ?_⟩
          intro hc; apply hne; rw [hc]
  · intro h
    have hn : n ≠ 0 := by
      rintro rfl
      have : 0 < d * overflowBound := Nat.mul_pos hd (by unfold overflowBound; positivity)
      simp at h; unfold overflowBound at h; omega
    rw [hneg hn]
    unfold f32Round f32Infinity
    congr 1
    have := roundMagnitude_le_inf n.natAbs d
    have h2 := (roundMagnitude_lt n.natAbs d hd).not.mpr (by omega)
    omega

/-- Finite operands meet none of the special cases of `⊕`. -/
theorem f32Add_finite_eq (x y : F32) (hx : f32IsFinite x = true) (hy : f32IsFinite y = true) :
    f32Add x y = f32AddFinite x y := by
  simp [f32Add, f32IsNaN_of_finite, f32IsInf_of_finite, hx, hy]

theorem f32Zero_eq_round (neg : Bool) : f32Zero neg = f32Round neg 0 1 := by cases neg <;> decide

/-- Everything `⊕` can do with finite operands: one rounding of the exact sum, with the sign of the sum or, for a zero sum, both signs together. -/
theorem f32Add_round (x y : F32) (hx : f32IsFinite x = true) (hy : f32IsFinite y = true) :
    ∃ neg, f32Add x y = f32Round neg (f32Scaled x + f32Scaled y).natAbs 1 ∧
      (f32Scaled x + f32Scaled y ≠ 0 → neg = decide (f32Scaled x + f32Scaled y < 0)) ∧
      (f32Scaled x + f32Scaled y = 0 → neg = (f32Sign x && f32Sign y)) := by
  rw [f32Add_finite_eq x y hx hy]; unfold f32AddFinite
  by_cases h : f32Scaled x + f32Scaled y = 0
  · exact ⟨f32Sign x && f32Sign y, by simp [h, f32Zero_eq_round], fun h' => absurd h h', fun _ => rfl⟩
  · exact ⟨decide (f32Scaled x + f32Scaled y < 0), by simp [h], fun _ => rfl, fun h' => absurd h' h⟩

theorem f32Sign_neg (x : F32) : f32Sign (f32Neg x) = !f32Sign x := by
  unfold f32Sign f32Neg; rw [BitVec.msb_xor, show (0x80000000#32).msb = true by decide, Bool.xor_true]

theorem f32Bits_neg (x : F32) : f32Bits (f32Neg x) = f32Bits x := by
  have e : ∀ z : F32, f32Bits z = (z.setWidth 31).toNat := fun z => by simp [f32Bits]
  rw [e, e, f32Neg, BitVec.setWidth_xor, show (0x80000000#32).setWidth 31 = 0#31 by decide, BitVec.xor_zero]

theorem f32Scaled_neg (x : F32) : f32Scaled (f32Neg x) = - f32Scaled x := by
  rw [f32Scaled_of, f32Scaled_of, f32Sign_neg, f32Magnitude_eq, f32Magnitude_eq, f32Bits_neg]
  cases f32Sign x <;> simp

theorem f32IsFinite_neg (x : F32) : f32IsFinite (f32Neg x) = f32IsFinite x := by
  rw [Bool.eq_iff_iff, f32IsFinite_iff, f32IsFinite_iff, f32Bits_neg]

/-- Everything `⊗` can do with finite operands. -/
theorem f32Mul_round (x y : F32) (hx : f32IsFinite x = true) (hy : f32IsFinite y = true) :
    f32Mul x y = f32Round (f32SignXor x y) (f32Magnitude x * f32Magnitude y) f32Unit := by
  simp [f32Mul, f32IsNaN_of_finite, f32IsInf_of_finite, hx, hy]

/-- Everything `⊘` can do with finite operands and a non-zero divisor. -/
theorem f32Div_round (x y : F32) (hx : f32IsFinite x = true) (hy : f32IsFinite y = true) (h0 : f32Magnitude y ≠ 0) :
    f32Div x y = f32Round (f32SignXor x y) (f32Magnitude x * f32Unit) (f32Magnitude y) := by
  simp [f32Div, f32IsNaN_of_finite, f32IsInf_of_finite, hx, hy, h0]

theorem natUnit_lt_overflow (n : Nat) (h : n < 2 ^ 33) : n * f32Unit < overflowBound := by
  calc n * f32Unit < 2 ^ 33 * f32Unit := Nat.mul_lt_mul_of_pos_right h f32Unit_pos
    _ ≤ overflowBound := by unfold f32Unit overflowBound; norm_num

/-- An integer up to 2^24 is representable (R8). -/
theorem toF32_representable (n : Nat) (h : n ≤ 2 ^ 24) : bitsMagnitude (roundMagnitude (n * f32Unit) 1) = n * f32Unit := by
  have hlt := natUnit_lt_overflow n (by omega)
  have : ∃ k m, n * f32Unit = m * 2 ^ k ∧ m < 2 ^ 24 := by
    rcases Nat.lt_or_ge n (2 ^ 24) with h' | h'
    · exact ⟨149, n, rfl, h'⟩
    · have : n = 2 ^ 24 := by omega
      exact ⟨149 + 24, 1, by rw [this]; unfold f32Unit; norm_num, by norm_num⟩
  obtain ⟨k, m, he, hm⟩ := this
  obtain ⟨p, hp, hpe⟩ := exists_bits_of_form k m hm (he ▸ hlt)
  have := (roundMagnitude_exact p 1 one_pos hp).2
  rw [one_mul, hpe, ← he] at this
  exact this

/-- Magnitudes are ordered as their bits are. -/
theorem bitsMagnitude_lt_iff (p q : Nat) : bitsMagnitude p < bitsMagnitude q ↔ p < q := by
  have key : ∀ p q, p < q → bitsMagnitude p < bitsMagnitude q := by
    intro p q h
    obtain ⟨k1, m1, e1, l1, g1, h1⟩ := bitsMagnitude_form p
    obtain ⟨k2, m2, e2, l2, g2, h2⟩ := bitsMagnitude_form q
    rw [e1, e2]
    rcases Nat.lt_trichotomy k1 k2 with hk | hk | hk
    · calc m1 * 2 ^ k1 < 2 ^ 24 * 2 ^ k1 := Nat.mul_lt_mul_of_pos_right l1 (by positivity)
        _ = 2 ^ 23 * 2 ^ (k1 + 1) := by ring
        _ ≤ m2 * 2 ^ k2 := Nat.mul_le_mul (g2 (by omega)) (Nat.pow_le_pow_right (by norm_num) hk)
    · subst hk; exact Nat.mul_lt_mul_of_pos_right (by omega) (by positivity)
    · have := g1 (by omega); omega
  constructor
  · intro h; by_contra hc
    rcases Nat.lt_or_eq_of_le (Nat.le_of_not_lt hc) with h' | h'
    · have := key _ _ h'; omega
    · subst h'; omega
  · exact key p q

theorem bitsMagnitude_inj (p q : Nat) (h : bitsMagnitude p = bitsMagnitude q) : p = q := by
  have a := (bitsMagnitude_lt_iff p q); have b := (bitsMagnitude_lt_iff q p); omega


theorem toF32_sign (n : Nat) : f32Sign (toF32 n) = false := f32Sign_round _ _ _

theorem toF32_finite (n : Nat) (h : n < 2 ^ 33) : f32IsFinite (toF32 n) = true := by
  unfold toF32; rw [f32IsFinite_round _ _ _ one_pos, one_mul]; exact natUnit_lt_overflow n h

theorem toF32_magnitude (n : Nat) (h : n ≤ 2 ^ 24) : f32Magnitude (toF32 n) = n * f32Unit := by
  unfold toF32; rw [f32Magnitude_round, toF32_representable n h]

theorem exists_bits_unit : ∃ p, p < infinityBits ∧ bitsMagnitude p = f32Unit :=
  ⟨0x3F800000, by unfold infinityBits; norm_num, by decide⟩

theorem toF32_ge_unit (n : Nat) (h : n < 2 ^ 33) (h1 : 1 ≤ n) : f32Unit ≤ f32Magnitude (toF32 n) := by
  obtain ⟨p, hp, hpe⟩ := exists_bits_unit
  unfold toF32; rw [f32Magnitude_round]; conv_lhs => rw [← hpe]
  apply le_round_of_le _ _ _ one_pos
  · rw [roundMagnitude_lt _ _ one_pos, one_mul]; exact natUnit_lt_overflow n h
  · rw [one_mul, hpe]; exact Nat.le_mul_of_pos_left _ h1

/-- Dividing a finite datum by one that is at least 1.0 gives a finite quotient (R100). -/
theorem f32Div_finite (x y : F32) (hx : f32IsFinite x = true) (hy : f32IsFinite y = true) (h : f32Unit ≤ f32Magnitude y) :
    f32IsFinite (f32Div x y) = true ∧ f32Sign (f32Div x y) = f32SignXor x y := by
  have := f32Unit_pos
  rw [f32Div_round x y hx hy (by omega), f32Sign_round]
  refine ⟨?_, rfl⟩
  rw [f32IsFinite_iff, f32Bits_round]
  apply (round_le_of_le _ _ (f32Bits x) (by omega) ((f32IsFinite_iff x).mp hx) _).1
  rw [← f32Magnitude_eq, mul_comm]; exact Nat.mul_le_mul_right _ h

theorem finite_or_infinite (x : F32) (h : f32IsNaN x = false) : f32IsFinite x = true ∨ (f32IsFinite x = false ∧ f32IsInf x = true) := by
  simp only [f32IsNaN, f32IsFinite, f32IsInf] at *
  by_cases h1 : f32Exponent x = 255 <;> simp_all

theorem f32Infinity_facts (n : Bool) : f32IsInf (f32Infinity n) = true ∧ f32IsNaN (f32Infinity n) = false ∧ f32Sign (f32Infinity n) = n ∧ f32IsFinite (f32Infinity n) = false := by
  cases n <;> decide

/-- A rounding is never NaN. -/
theorem f32Round_not_nan (neg : Bool) (n d : Nat) : f32IsNaN (f32Round neg n d) = false := by
  have h := roundMagnitude_le_inf n d
  simp only [f32IsNaN, f32Exponent_eq, f32Fraction_eq, f32Bits_round]
  unfold infinityBits at h
  simp; omega

theorem rate_toNat_lt (r : BitVec 32) : r.toNat < 2 ^ 33 := by have := r.isLt; omega

theorem len_toNat_lt (r : BitVec 16) : r.toNat < 2 ^ 33 := by have := r.isLt; omega

theorem rate_pos_of_ne (r : BitVec 32) (h : r ≠ 0#32) : 1 ≤ r.toNat := by
  rcases Nat.eq_zero_or_pos r.toNat with h' | h'
  · exact absurd (BitVec.eq_of_toNat_eq h') h
  · exact h'

theorem len_pos_of_ne (r : BitVec 16) (h : r ≠ 0#16) : 1 ≤ r.toNat := by
  rcases Nat.eq_zero_or_pos r.toNat with h' | h'
  · exact absurd (BitVec.eq_of_toNat_eq h') h
  · exact h'

/-- Two data with the same sign and the same magnitude are the same bits. -/
theorem f32_eq_of_magnitude (x y : F32) (hs : f32Sign x = f32Sign y) (hm : f32Magnitude x = f32Magnitude y) : x = y := by
  rw [f32Magnitude_eq, f32Magnitude_eq] at hm
  exact f32_ext x y hs (bitsMagnitude_inj _ _ hm)

/-- A finite value below 65535 and a finite value have a finite sum (R27 item 3). -/

theorem f32Add_finite_of_bound (x y : F32) (b : Nat) (hx : f32IsFinite x = true) (hy : f32IsFinite y = true)
    (h : f32Magnitude x < b * f32Unit) (hb : b ≤ 65535) : f32IsFinite (f32Add x y) = true := by
  obtain ⟨neg, h1, -, -⟩ := f32Add_round x y hx hy
  rw [h1, f32IsFinite_round _ _ _ one_pos, one_mul]
  have hm : f32Magnitude y ≤ (2 ^ 24 - 1) * 2 ^ 253 := by
    rw [f32Magnitude_eq]
    obtain ⟨k, m, e, l, g, he⟩ := bitsMagnitude_form (f32Bits y)
    have hp := (f32IsFinite_iff y).mp hy
    unfold infinityBits at hp
    have hk : k ≤ 253 := by
      by_contra hc
      have := g (by omega)
      omega
    rw [e]; exact Nat.mul_le_mul (by omega) (Nat.pow_le_pow_right (by norm_num) hk)
  have ha : (f32Scaled x + f32Scaled y).natAbs ≤ f32Magnitude x + f32Magnitude y := by
    have := Int.natAbs_add_le (f32Scaled x) (f32Scaled y)
    rwa [f32Scaled_natAbs, f32Scaled_natAbs] at this
  have hb2 : b * f32Unit ≤ 65535 * f32Unit := Nat.mul_le_mul_right _ hb
  have : 65535 * f32Unit + (2 ^ 24 - 1) * 2 ^ 253 < overflowBound := by
    unfold f32Unit overflowBound; norm_num
  omega


theorem f32One_magnitude : f32Magnitude f32One = f32Unit := by decide

theorem f32One_scaled : f32Scaled f32One = f32Unit := by decide

theorem f32One_finite : f32IsFinite f32One = true := by decide

/-- An integer below 2^24 at an exponent rounds to itself. -/
theorem roundMagnitude_of_form (k m : Nat) (hm : m < 2 ^ 24) (h : m * 2 ^ k < overflowBound) :
    bitsMagnitude (roundMagnitude (m * 2 ^ k) 1) = m * 2 ^ k := by
  obtain ⟨p, hp, hpe⟩ := exists_bits_of_form k m hm h
  have := (roundMagnitude_exact p 1 one_pos hp).2
  rwa [one_mul, hpe] at this

/-- A sum whose exact magnitude is representable is exact. -/
theorem f32Scaled_add (x y : F32) (hx : f32IsFinite x = true) (hy : f32IsFinite y = true)
    (h : bitsMagnitude (roundMagnitude (f32Scaled x + f32Scaled y).natAbs 1) = (f32Scaled x + f32Scaled y).natAbs) :
    f32Scaled (f32Add x y) = f32Scaled x + f32Scaled y := by
  obtain ⟨neg, e, hn, hz⟩ := f32Add_round x y hx hy
  rw [e, f32Scaled_round, h]
  by_cases h0 : f32Scaled x + f32Scaled y = 0
  · rw [h0]; simp
  · rw [hn h0]; by_cases hl : f32Scaled x + f32Scaled y < 0
    · simp only [hl, decide_true, if_true, neg_one_mul, Int.natCast_natAbs, abs_of_neg]; omega
    · simp only [hl, decide_false, Bool.false_eq_true, if_false, one_mul, Int.natCast_natAbs]; exact abs_of_nonneg (by omega)

/-- A product with a weight of at most 1.0 is finite and no larger than the other factor (R110). -/
theorem f32Mul_le_right (w t : F32) (hw : f32IsFinite w = true) (ht : f32IsFinite t = true) (h : f32Magnitude w ≤ f32Unit) :
    f32IsFinite (f32Mul w t) = true ∧ f32Magnitude (f32Mul w t) ≤ f32Magnitude t := by
  rw [f32Mul_round w t hw ht, f32IsFinite_iff, f32Magnitude_round, f32Bits_round, f32Magnitude_eq t]
  apply round_le_of_le _ _ _ f32Unit_pos ((f32IsFinite_iff t).mp ht)
  rw [← f32Magnitude_eq]; exact Nat.mul_le_mul_right _ h

theorem f32Mul_le_left (w t : F32) (hw : f32IsFinite w = true) (ht : f32IsFinite t = true) (h : f32Magnitude t ≤ f32Unit) :
    f32IsFinite (f32Mul w t) = true ∧ f32Magnitude (f32Mul w t) ≤ f32Magnitude w := by
  rw [f32Mul_round w t hw ht, f32IsFinite_iff, f32Magnitude_round, f32Bits_round, f32Magnitude_eq w]
  apply round_le_of_le _ _ _ f32Unit_pos ((f32IsFinite_iff w).mp hw)
  rw [← f32Magnitude_eq, mul_comm]; exact Nat.mul_le_mul_right _ h

end Sys2Proof.Machine
end

