-- ==== Sys2Proof/Laws/State.lean ====
section
/-! SUPPORT. One lemma per field per named update of State, each true by rfl: no later proof unfolds a record
update. -/

namespace Sys2Proof.Machine

variable (s : State)

/-! ### State.setEntry -/

@[simp] theorem State.setEntry_mode (a : Nat) (v : F32) : (s.setEntry a v).mode = s.mode := rfl
@[simp] theorem State.setEntry_fault (a : Nat) (v : F32) : (s.setEntry a v).fault = s.fault := rfl
@[simp] theorem State.setEntry_sampleRate (a : Nat) (v : F32) : (s.setEntry a v).sampleRate = s.sampleRate := rfl
@[simp] theorem State.setEntry_tableLen (a : Nat) (v : F32) : (s.setEntry a v).tableLen = s.tableLen := rfl
@[simp] theorem State.setEntry_index (a : Nat) (v : F32) : (s.setEntry a v).index = s.index := rfl
@[simp] theorem State.setEntry_incr (a : Nat) (v : F32) : (s.setEntry a v).incr = s.incr := rfl
@[simp] theorem State.setEntry_table (a : Nat) (v : F32) : (s.setEntry a v).table = Memory.write s.table a v := rfl
@[simp] theorem State.setEntry_params (a : Nat) (v : F32) : (s.setEntry a v).params = s.params := rfl
@[simp] theorem State.setEntry_inputs (a : Nat) (v : F32) : (s.setEntry a v).inputs = s.inputs := rfl
@[simp] theorem State.setEntry_response (a : Nat) (v : F32) : (s.setEntry a v).response = s.response := rfl

/-! ### State.setIndex -/

@[simp] theorem State.setIndex_mode (x : F32) : (s.setIndex x).mode = s.mode := rfl
@[simp] theorem State.setIndex_fault (x : F32) : (s.setIndex x).fault = s.fault := rfl
@[simp] theorem State.setIndex_sampleRate (x : F32) : (s.setIndex x).sampleRate = s.sampleRate := rfl
@[simp] theorem State.setIndex_tableLen (x : F32) : (s.setIndex x).tableLen = s.tableLen := rfl
@[simp] theorem State.setIndex_index (x : F32) : (s.setIndex x).index = x := rfl
@[simp] theorem State.setIndex_incr (x : F32) : (s.setIndex x).incr = s.incr := rfl
@[simp] theorem State.setIndex_table (x : F32) : (s.setIndex x).table = s.table := rfl
@[simp] theorem State.setIndex_params (x : F32) : (s.setIndex x).params = s.params := rfl
@[simp] theorem State.setIndex_inputs (x : F32) : (s.setIndex x).inputs = s.inputs := rfl
@[simp] theorem State.setIndex_response (x : F32) : (s.setIndex x).response = s.response := rfl

/-! ### State.setIncr -/

@[simp] theorem State.setIncr_mode (x : F32) : (s.setIncr x).mode = s.mode := rfl
@[simp] theorem State.setIncr_fault (x : F32) : (s.setIncr x).fault = s.fault := rfl
@[simp] theorem State.setIncr_sampleRate (x : F32) : (s.setIncr x).sampleRate = s.sampleRate := rfl
@[simp] theorem State.setIncr_tableLen (x : F32) : (s.setIncr x).tableLen = s.tableLen := rfl
@[simp] theorem State.setIncr_index (x : F32) : (s.setIncr x).index = s.index := rfl
@[simp] theorem State.setIncr_incr (x : F32) : (s.setIncr x).incr = x := rfl
@[simp] theorem State.setIncr_table (x : F32) : (s.setIncr x).table = s.table := rfl
@[simp] theorem State.setIncr_params (x : F32) : (s.setIncr x).params = s.params := rfl
@[simp] theorem State.setIncr_inputs (x : F32) : (s.setIncr x).inputs = s.inputs := rfl
@[simp] theorem State.setIncr_response (x : F32) : (s.setIncr x).response = s.response := rfl

/-! ### State.setFault -/

@[simp] theorem State.setFault_mode : (s.setFault).mode = s.mode := rfl
@[simp] theorem State.setFault_fault : (s.setFault).fault = true := rfl
@[simp] theorem State.setFault_sampleRate : (s.setFault).sampleRate = s.sampleRate := rfl
@[simp] theorem State.setFault_tableLen : (s.setFault).tableLen = s.tableLen := rfl
@[simp] theorem State.setFault_index : (s.setFault).index = s.index := rfl
@[simp] theorem State.setFault_incr : (s.setFault).incr = s.incr := rfl
@[simp] theorem State.setFault_table : (s.setFault).table = s.table := rfl
@[simp] theorem State.setFault_params : (s.setFault).params = s.params := rfl
@[simp] theorem State.setFault_inputs : (s.setFault).inputs = s.inputs := rfl
@[simp] theorem State.setFault_response : (s.setFault).response = s.response := rfl

/-! ### State.setInputs -/

@[simp] theorem State.setInputs_mode (l : List HostInput) : (s.setInputs l).mode = s.mode := rfl
@[simp] theorem State.setInputs_fault (l : List HostInput) : (s.setInputs l).fault = s.fault := rfl
@[simp] theorem State.setInputs_sampleRate (l : List HostInput) : (s.setInputs l).sampleRate = s.sampleRate := rfl
@[simp] theorem State.setInputs_tableLen (l : List HostInput) : (s.setInputs l).tableLen = s.tableLen := rfl
@[simp] theorem State.setInputs_index (l : List HostInput) : (s.setInputs l).index = s.index := rfl
@[simp] theorem State.setInputs_incr (l : List HostInput) : (s.setInputs l).incr = s.incr := rfl
@[simp] theorem State.setInputs_table (l : List HostInput) : (s.setInputs l).table = s.table := rfl
@[simp] theorem State.setInputs_params (l : List HostInput) : (s.setInputs l).params = s.params := rfl
@[simp] theorem State.setInputs_inputs (l : List HostInput) : (s.setInputs l).inputs = l := rfl
@[simp] theorem State.setInputs_response (l : List HostInput) : (s.setInputs l).response = s.response := rfl

/-! ### State.setResponse -/

@[simp] theorem State.setResponse_mode (r : Option Response) : (s.setResponse r).mode = s.mode := rfl
@[simp] theorem State.setResponse_fault (r : Option Response) : (s.setResponse r).fault = s.fault := rfl
@[simp] theorem State.setResponse_sampleRate (r : Option Response) : (s.setResponse r).sampleRate = s.sampleRate := rfl
@[simp] theorem State.setResponse_tableLen (r : Option Response) : (s.setResponse r).tableLen = s.tableLen := rfl
@[simp] theorem State.setResponse_index (r : Option Response) : (s.setResponse r).index = s.index := rfl
@[simp] theorem State.setResponse_incr (r : Option Response) : (s.setResponse r).incr = s.incr := rfl
@[simp] theorem State.setResponse_table (r : Option Response) : (s.setResponse r).table = s.table := rfl
@[simp] theorem State.setResponse_params (r : Option Response) : (s.setResponse r).params = s.params := rfl
@[simp] theorem State.setResponse_inputs (r : Option Response) : (s.setResponse r).inputs = s.inputs := rfl
@[simp] theorem State.setResponse_response (r : Option Response) : (s.setResponse r).response = r := rfl

/-! ### State.setOscillator -/

@[simp] theorem State.setOscillator_mode (m : Mode) (len : BitVec 16) (rate : BitVec 32) : (s.setOscillator m len rate).mode = m := rfl
@[simp] theorem State.setOscillator_fault (m : Mode) (len : BitVec 16) (rate : BitVec 32) : (s.setOscillator m len rate).fault = s.fault := rfl
@[simp] theorem State.setOscillator_sampleRate (m : Mode) (len : BitVec 16) (rate : BitVec 32) : (s.setOscillator m len rate).sampleRate = rate := rfl
@[simp] theorem State.setOscillator_tableLen (m : Mode) (len : BitVec 16) (rate : BitVec 32) : (s.setOscillator m len rate).tableLen = len := rfl
@[simp] theorem State.setOscillator_index (m : Mode) (len : BitVec 16) (rate : BitVec 32) : (s.setOscillator m len rate).index = 0x00000000#32 := rfl
@[simp] theorem State.setOscillator_incr (m : Mode) (len : BitVec 16) (rate : BitVec 32) : (s.setOscillator m len rate).incr = 0x00000000#32 := rfl
@[simp] theorem State.setOscillator_table (m : Mode) (len : BitVec 16) (rate : BitVec 32) : (s.setOscillator m len rate).table = s.table := rfl
@[simp] theorem State.setOscillator_params (m : Mode) (len : BitVec 16) (rate : BitVec 32) : (s.setOscillator m len rate).params = s.params := rfl
@[simp] theorem State.setOscillator_inputs (m : Mode) (len : BitVec 16) (rate : BitVec 32) : (s.setOscillator m len rate).inputs = s.inputs := rfl
@[simp] theorem State.setOscillator_response (m : Mode) (len : BitVec 16) (rate : BitVec 32) : (s.setOscillator m len rate).response = s.response := rfl

/-! ### State.hardwareReset -/

@[simp] theorem State.hardwareReset_mode : (s.hardwareReset).mode = .idle := rfl
@[simp] theorem State.hardwareReset_fault : (s.hardwareReset).fault = false := rfl
@[simp] theorem State.hardwareReset_sampleRate : (s.hardwareReset).sampleRate = 0#32 := rfl
@[simp] theorem State.hardwareReset_tableLen : (s.hardwareReset).tableLen = 0#16 := rfl
@[simp] theorem State.hardwareReset_index : (s.hardwareReset).index = 0x00000000#32 := rfl
@[simp] theorem State.hardwareReset_incr : (s.hardwareReset).incr = 0x00000000#32 := rfl
@[simp] theorem State.hardwareReset_table : (s.hardwareReset).table = [] := rfl
@[simp] theorem State.hardwareReset_params : (s.hardwareReset).params = s.params := rfl
@[simp] theorem State.hardwareReset_inputs : (s.hardwareReset).inputs = s.inputs := rfl
@[simp] theorem State.hardwareReset_response : (s.hardwareReset).response = none := rfl

/-! ### State.wait -/

@[simp] theorem State.wait_mode : (s.wait).mode = s.mode := rfl
@[simp] theorem State.wait_fault : (s.wait).fault = s.fault := rfl
@[simp] theorem State.wait_sampleRate : (s.wait).sampleRate = s.sampleRate := rfl
@[simp] theorem State.wait_tableLen : (s.wait).tableLen = s.tableLen := rfl
@[simp] theorem State.wait_index : (s.wait).index = s.index := rfl
@[simp] theorem State.wait_incr : (s.wait).incr = s.incr := rfl
@[simp] theorem State.wait_table : (s.wait).table = s.table := rfl
@[simp] theorem State.wait_params : (s.wait).params = s.params := rfl
@[simp] theorem State.wait_inputs : (s.wait).inputs = s.inputs := rfl
@[simp] theorem State.wait_response : (s.wait).response = none := rfl

end Sys2Proof.Machine
end

