-- ==== Sys2Proof/Laws/Ops.lean ====
section
/-! SUPPORT. One lemma per shared operation, saying everything it can do: the table space, respond and raise, tableRead,
lerp, and the step. -/

namespace Sys2Proof.Machine

/-! ### The table space -/

@[simp] theorem Memory.read_nil (a : Nat) : Memory.read [] a = none := rfl

theorem Memory.read_cons (b : Nat) (v : F32) (rest : Memory) (a : Nat) :
    Memory.read ((b, v) :: rest) a = if a = b then some v else Memory.read rest a := rfl

/-- An entry just written reads as what was written. -/
@[simp] theorem Memory.read_write_same (m : Memory) (a : Nat) (v : F32) :
    Memory.read (Memory.write m a v) a = some v := by
  induction m with
  | nil => simp [Memory.write, Memory.read]
  | cons e rest ih =>
    obtain ⟨b, u⟩ := e
    unfold Memory.write
    split
    · simp [Memory.read]
    · split
      · simp [Memory.read]
      · rw [Memory.read_cons, if_neg ‹_›]; exact ih

/-- In canonical order or not, a write leaves every other address alone. -/
theorem Memory.read_write_other (m : Memory) (a b : Nat) (v : F32) (h : b ≠ a) :
    Memory.read (Memory.write m a v) b = Memory.read m b := by
  induction m with
  | nil => simp [Memory.write, Memory.read, h]
  | cons e rest ih =>
    obtain ⟨c, u⟩ := e
    unfold Memory.write
    split
    · rw [Memory.read_cons, if_neg h]
    · split
      · next hac => subst hac; rw [Memory.read_cons, Memory.read_cons, if_neg h, if_neg h]
      · rw [Memory.read_cons, Memory.read_cons, ih]

/-- A write adds one entry and keeps only old ones. -/
theorem Memory.mem_write (m : Memory) (a : Nat) (v : F32) (e : Entry) (h : e ∈ Memory.write m a v) :
    e = (a, v) ∨ e ∈ m := by
  induction m with
  | nil => simpa [Memory.write] using h
  | cons c rest ih =>
    obtain ⟨b, u⟩ := c
    unfold Memory.write at h
    split at h
    · simpa using h
    · split at h
      · rcases List.mem_cons.mp h with h | h
        · exact .inl h
        · exact .inr (List.mem_cons_of_mem _ h)
      · rcases List.mem_cons.mp h with h | h
        · exact .inr (h ▸ List.mem_cons_self)
        · exact (ih h).imp_right (List.mem_cons_of_mem _)

/-- A write keeps the canonical form. -/
theorem Memory.wf_write (m : Memory) (a : Nat) (v : F32) (h : Memory.wf m) : Memory.wf (Memory.write m a v) := by
  induction m with
  | nil => simp [Memory.write, Memory.wf]
  | cons c rest ih =>
    obtain ⟨b, u⟩ := c
    obtain ⟨hb, hrest⟩ := List.pairwise_cons.mp h
    unfold Memory.write
    split
    · next hab =>
      refine List.pairwise_cons.mpr ⟨fun e he => ?_, h⟩
      rcases List.mem_cons.mp he with he | he
      · subst he; exact hab
      · exact lt_trans hab (hb e he)
    · split
      · next hab => subst hab; exact List.pairwise_cons.mpr ⟨hb, hrest⟩
      · next h1 h2 =>
        refine List.pairwise_cons.mpr ⟨fun e he => ?_, ih hrest⟩
        rcases Memory.mem_write rest a v e he with he | he
        · subst he; exact lt_of_le_of_ne (Nat.le_of_not_lt h1) (Ne.symm h2)
        · exact hb e he

/-- An address that holds a value is listed. -/
theorem Memory.mem_of_read (m : Memory) (a : Nat) (v : F32) (h : Memory.read m a = some v) : (a, v) ∈ m := by
  induction m with
  | nil => simp at h
  | cons c rest ih =>
    obtain ⟨b, u⟩ := c
    rw [Memory.read_cons] at h
    split at h
    · next hab => cases h; subst hab; exact List.mem_cons_self
    · exact List.mem_cons_of_mem _ (ih h)

@[simp] theorem reset_table_wf : Memory.wf State.reset.table := List.Pairwise.nil

theorem tableRead_ok (s : State) (a : Nat) (v : F32) : tableRead s a = .ok v ↔ Memory.read s.table a = some v := by
  unfold tableRead; split <;> simp_all

theorem tableRead_error (s : State) (a : Nat) (e : Fault) :
    tableRead s a = .error e ↔ Memory.read s.table a = none ∧ e = .unwrittenTableRead := by
  unfold tableRead
  cases Memory.read s.table a <;> simp [eq_comm]

/-! ### Ending a command -/

theorem respond_eq (st : Status) (d : Word) (s : State) :
    respond st d s = .next { s with response := some ⟨st, d⟩ } := rfl

theorem raise_eq (st : Status) (s : State) : raise st s = .next { s with response := some ⟨st, 0#32⟩ } := rfl

theorem respond_next (st : Status) (d : Word) (s t : State) (h : respond st d s = .next t) :
    t = { s with response := some ⟨st, d⟩ } := by rw [respond_eq] at h; cases h; rfl

theorem raise_next (st : Status) (s t : State) (h : raise st s = .next t) :
    t = { s with response := some ⟨st, 0#32⟩ } := by rw [raise_eq] at h; cases h; rfl

/-! ### The interpolator -/

theorem lerpIndex_some (x : F32) (len : BitVec 16) (k : Nat) (h : lerpIndex x len = some k) :
    f32IsFinite x = true ∧ 0 ≤ f32Scaled x ∧ f32Floor x = k ∧ k < len.toNat := by
  unfold lerpIndex at h
  split at h
  · next hc =>
    simp only [Bool.and_eq_true, decide_eq_true_eq] at hc
    obtain ⟨⟨h1, h2⟩, h3⟩ := hc
    have h0 : 0 ≤ f32Floor x := Int.ediv_nonneg h2 (Int.natCast_nonneg _)
    cases h
    exact ⟨h1, h2, by omega, by omega⟩
  · cases h

/-- Everything lerp can answer with a value. -/
theorem lerp_ok (s : State) (x y : F32) (h : lerp s x = .ok y) :
    ∃ k t0 t1, lerpIndex x s.tableLen = some k ∧ Memory.read s.table k = some t0 ∧
      Memory.read s.table ((k + 1) % s.tableLen.toNat) = some t1 ∧ y = blend x k t0 t1 := by
  unfold lerp at h
  cases hk : lerpIndex x s.tableLen with
  | none => rw [hk] at h; cases h
  | some k =>
    simp only [hk] at h
    cases h0 : tableRead s k with
    | error e => simp [h0] at h
    | ok t0 =>
      cases h1 : tableRead s ((k + 1) % s.tableLen.toNat) with
      | error e => simp [h0, h1] at h
      | ok t1 =>
        simp only [h0, h1] at h
        cases h
        exact ⟨k, t0, t1, rfl, (tableRead_ok _ _ _).mp h0, (tableRead_ok _ _ _).mp h1, rfl⟩

/-- lerp with its index and both entries known. -/
theorem lerp_eq (s : State) (x t0 t1 : F32) (k : Nat) (hk : lerpIndex x s.tableLen = some k)
    (h0 : Memory.read s.table k = some t0) (h1 : Memory.read s.table ((k + 1) % s.tableLen.toNat) = some t1) :
    lerp s x = .ok (blend x k t0 t1) := by
  simp only [lerp, hk, tableRead, h0, h1]

/-! ### What each meaning can answer -/

theorem execTblWr_next (a : Nat) (v : F32) (s t : State) (h : execTblWr a v s = .next t) :
    (∃ st, st ≠ .ok ∧ t = { s with response := some ⟨st, 0#32⟩ }) ∨
      s.mode = .idle ∧ a < s.params.tableDepth.toNat ∧ f32IsFinite v = true ∧
        t = { s with table := Memory.write s.table a v, response := some ⟨.ok, 0#32⟩ } := by
  unfold execTblWr at h
  split at h
  · exact .inl ⟨_, by decide, raise_next _ _ _ h⟩
  · next hm =>
    split at h
    · exact .inl ⟨_, by decide, raise_next _ _ _ h⟩
    · next hr =>
      split at h
      · exact .inl ⟨_, by decide, raise_next _ _ _ h⟩
      · next hf =>
        have := respond_next _ _ _ _ h
        exact .inr ⟨not_ne_iff.mp hm, by simpa [inTable] using hr, by simpa using hf, this⟩

theorem execTblRd_next (a : Nat) (s t : State) (h : execTblRd a s = .next t) :
    ∃ r, t = { s with response := some r } := by
  unfold execTblRd at h
  split at h
  · exact ⟨_, raise_next _ _ _ h⟩
  · split at h
    · exact ⟨_, respond_next _ _ _ _ h⟩
    · cases h

theorem execConstruct_next (len : BitVec 16) (rate : Word) (s t : State) (h : execConstruct len rate s = .next t) :
    (∃ st, st ≠ .ok ∧ t = { s with response := some ⟨st, 0#32⟩ }) ∨
      s.mode = .idle ∧ validLength s len = true ∧ rate ≠ 0#32 ∧
        t = { s with
          mode := .active, tableLen := len, sampleRate := rate, index := 0x00000000#32, incr := 0x00000000#32,
          response := some ⟨.ok, 0#32⟩ } := by
  unfold execConstruct at h
  split at h
  · exact .inl ⟨_, by decide, raise_next _ _ _ h⟩
  · next hm =>
    split at h
    · exact .inl ⟨_, by decide, raise_next _ _ _ h⟩
    · next hl =>
      split at h
      · exact .inl ⟨_, by decide, raise_next _ _ _ h⟩
      · next hr => exact .inr ⟨not_ne_iff.mp hm, by simpa using hl, hr, respond_next _ _ _ _ h⟩

theorem execRelease_next (s t : State) (h : execRelease s = .next t) :
    (∃ st, st ≠ .ok ∧ t = { s with response := some ⟨st, 0#32⟩ }) ∨
      s.mode = .active ∧
        t = { s with
          mode := .idle, tableLen := 0#16, sampleRate := 0#32, index := 0x00000000#32, incr := 0x00000000#32,
          response := some ⟨.ok, 0#32⟩ } := by
  unfold execRelease at h
  split at h
  · exact .inl ⟨_, by decide, raise_next _ _ _ h⟩
  · next hm => exact .inr ⟨not_ne_iff.mp hm, respond_next _ _ _ _ h⟩

theorem execSetFreq_next (f : F32) (s t : State) (h : execSetFreq f s = .next t) :
    (∃ st, st ≠ .ok ∧ t = { s with response := some ⟨st, 0#32⟩ }) ∨
      s.mode = .active ∧ f32IsFinite f = true ∧ f32IsFinite (increment f s.tableLen s.sampleRate) = true ∧
        t = { s with incr := increment f s.tableLen s.sampleRate, response := some ⟨.ok, 0#32⟩ } := by
  unfold execSetFreq at h
  split at h
  · exact .inl ⟨_, by decide, raise_next _ _ _ h⟩
  · next hm =>
    split at h
    · exact .inl ⟨_, by decide, raise_next _ _ _ h⟩
    · next hf =>
      split at h
      · exact .inl ⟨_, by decide, raise_next _ _ _ h⟩
      · next hq => exact .inr ⟨not_ne_iff.mp hm, by simpa using hf, by simpa using hq, respond_next _ _ _ _ h⟩

theorem execGetSample_next (s t : State) (h : execGetSample s = .next t) :
    s.mode ≠ .active ∧ t = { s with response := some ⟨.errState, 0#32⟩ } ∨
      s.mode = .active ∧ f32Lt s.index 0x00000000#32 = true ∧
        t = { s with fault := true, response := some ⟨.errPhase, 0#32⟩ } ∨
      s.mode = .active ∧ f32Lt s.index 0x00000000#32 = false ∧
        ∃ y, lerp s s.index = .ok y ∧ t = { s with index := advancedIndex s, response := some ⟨.ok, y⟩ } := by
  unfold execGetSample at h
  split at h
  · next hm => exact .inl ⟨hm, raise_next _ _ _ h⟩
  · next hm =>
    have hm := not_ne_iff.mp hm
    split at h
    · next hl => exact .inr (.inl ⟨hm, hl, raise_next _ _ _ h⟩)
    · next hl =>
      refine .inr (.inr ⟨hm, by simpa using hl, ?_⟩)
      split at h
      · next y hy => exact ⟨y, hy, respond_next _ _ _ _ h⟩
      · cases h

theorem execGetInfo_next (sel : Nat) (s t : State) (h : execGetInfo sel s = .next t) :
    ∃ r, t = { s with response := some r } := by
  unfold execGetInfo at h
  split at h
  · exact ⟨_, raise_next _ _ _ h⟩
  · split at h
    · exact ⟨_, respond_next _ _ _ _ h⟩
    · exact ⟨_, raise_next _ _ _ h⟩

theorem execPeek_next (sel : Nat) (s t : State) (h : execPeek sel s = .next t) :
    ∃ r, t = { s with response := some r } := by
  unfold execPeek at h
  split at h
  · exact ⟨_, respond_next _ _ _ _ h⟩
  · exact ⟨_, raise_next _ _ _ h⟩

theorem execNop_next (s t : State) (h : execNop s = .next t) : t = { s with response := some ⟨.ok, 0#32⟩ } :=
  respond_next _ _ _ _ h

/-! ### The step -/

/-- Everything a step can answer with a next state. -/
theorem step_next (s t : State) (h : step s = .next t) :
    s.inputs = [] ∧ t = { s with response := none } ∨
      (∃ w rest i, s.inputs = .command w :: rest ∧ decode w = .ok i ∧ exec i { s with inputs := rest } = .next t) ∨
      (∃ w rest e, s.inputs = .command w :: rest ∧ decode w = .error e ∧
        t = { s with inputs := rest, response := some ⟨.errIllegal, 0#32⟩ }) ∨
      ∃ rest, (s.inputs = .reset :: rest ∨ ∃ w, s.inputs = .resetDuring w :: rest) ∧
        t = State.hardwareReset { s with inputs := rest } := by
  unfold step acceptInput at h
  split at h
  · next hi => cases h; exact .inl ⟨hi, rfl⟩
  · next w rest hi =>
    unfold runCommand at h
    split at h
    · next i hd => exact .inr (.inl ⟨w, rest, i, hi, hd, h⟩)
    · next e hd => exact .inr (.inr (.inl ⟨w, rest, e, hi, hd, raise_next _ _ _ h⟩))
  · next rest hi => cases h; exact .inr (.inr (.inr ⟨rest, .inl hi, rfl⟩))
  · next w rest hi => cases h; exact .inr (.inr (.inr ⟨rest, .inr ⟨w, hi⟩, rfl⟩))

theorem step_command (s : State) (w : CommandWord) (rest : List HostInput) (hi : s.inputs = .command w :: rest) :
    step s = runCommand w { s with inputs := rest } := by
  simp only [step, acceptInput, hi, State.setInputs]

end Sys2Proof.Machine
end

