-- ==== Sys2Proof/Laws/PerInstr.lean ====
section
/-! SUPPORT. Statements made per command. Family EncodeMatchesRow: the word of a command lies in its own row of the
opcode table (R63, R64). -/

namespace Sys2Proof

/-- The mask of a word, field by field. -/
theorem assembleWord_and (opc rsv : BitVec 8) (aux am : BitVec 16) (data dm : BitVec 32) :
    assembleWord opc aux data &&& (0xFF#8 ++ rsv ++ am ++ dm) = opc ++ 0#8 ++ (aux &&& am) ++ (data &&& dm) := by
  change ((opc ++ 0#8 ++ aux ++ data : BitVec (8 + 8 + 16 + 32)) &&& (BitVec.allOnes 8 ++ rsv ++ am ++ dm)) = _
  rw [BitVec.and_append, BitVec.and_append, BitVec.and_append, BitVec.and_allOnes, BitVec.zero_and]

@[simp] theorem opcField_assembleWord (opc : BitVec 8) (aux : BitVec 16) (data : BitVec 32) :
    opcField (assembleWord opc aux data) = opc := by
  unfold opcField assembleWord
  ext i hi
  simp only [BitVec.getElem_extractLsb', BitVec.getLsbD_append]
  simp [show ¬ 56 + i < 32 by omega, show ¬ 56 + i - 32 < 16 by omega, show ¬ 56 + i - 32 - 16 < 8 by omega,
    show 56 + i - 32 - 16 - 8 = i by omega, BitVec.getLsbD_eq_getElem hi]

@[simp] theorem rsvField_assembleWord (opc : BitVec 8) (aux : BitVec 16) (data : BitVec 32) :
    rsvField (assembleWord opc aux data) = 0#8 := by
  unfold rsvField assembleWord
  ext i hi
  simp only [BitVec.getElem_extractLsb', BitVec.getLsbD_append]
  simp [show ¬ 48 + i < 32 by omega, show ¬ 48 + i - 32 < 16 by omega, show 48 + i - 32 - 16 < 8 by omega]

@[simp] theorem auxField_assembleWord (opc : BitVec 8) (aux : BitVec 16) (data : BitVec 32) :
    auxField (assembleWord opc aux data) = aux := by
  unfold auxField assembleWord
  ext i hi
  simp only [BitVec.getElem_extractLsb', BitVec.getLsbD_append]
  simp [hi]

@[simp] theorem dataField_assembleWord (opc : BitVec 8) (aux : BitVec 16) (data : BitVec 32) :
    dataField (assembleWord opc aux data) = data := by
  unfold dataField assembleWord
  ext i hi
  simp only [BitVec.getElem_extractLsb', BitVec.getLsbD_append]
  simp [hi]

namespace Laws.EncodeMatchesRow

/-- The command's word matches a row of the opcode table that carries its mnemonic. -/
def Statement (i : Instr) : Prop := ∃ r ∈ opcodeTable, r.mnemonic = i.mnemonic ∧ r.Matches (encode i)

theorem nop : Statement .nop := ⟨opcodeTable[0], by simp [opcodeTable], rfl, by decide⟩

theorem tblWr (addr : Nat) (value : F32) : Statement (.tblWr addr value) :=
  ⟨opcodeTable[1], by simp [opcodeTable], rfl, by
    refine (assembleWord_and 0x01#8 0xFF#8 _ 0#16 value 0#32).trans ?_
    simp only [BitVec.and_zero]; rfl⟩

theorem tblRd (addr : Nat) : Statement (.tblRd addr) :=
  ⟨opcodeTable[2], by simp [opcodeTable], rfl, by
    refine (assembleWord_and 0x02#8 0xFF#8 _ 0#16 0#32 0xFFFFFFFF#32).trans ?_
    simp only [BitVec.and_zero]; rfl⟩

theorem construct (len : BitVec 16) (rate : Word) : Statement (.construct len rate) :=
  ⟨opcodeTable[3], by simp [opcodeTable], rfl, by
    refine (assembleWord_and 0x03#8 0xFF#8 _ 0#16 rate 0#32).trans ?_
    simp only [BitVec.and_zero]; rfl⟩

theorem setFreq (freq : F32) : Statement (.setFreq freq) :=
  ⟨opcodeTable[4], by simp [opcodeTable], rfl, by
    refine (assembleWord_and 0x04#8 0xFF#8 0#16 0xFFFF#16 freq 0#32).trans ?_
    simp only [BitVec.and_zero]; rfl⟩

theorem getSample : Statement .getSample := ⟨opcodeTable[5], by simp [opcodeTable], rfl, by decide⟩

theorem getInfo (sel : Nat) : Statement (.getInfo sel) :=
  ⟨opcodeTable[6], by simp [opcodeTable], rfl, by
    refine (assembleWord_and 0x06#8 0xFF#8 _ 0#16 0#32 0xFFFFFFFF#32).trans ?_
    simp only [BitVec.and_zero]; rfl⟩

theorem release : Statement .release := ⟨opcodeTable[7], by simp [opcodeTable], rfl, by decide⟩

theorem peek (sel : Nat) : Statement (.peek sel) :=
  ⟨opcodeTable[8], by simp [opcodeTable], rfl, by
    refine (assembleWord_and 0x08#8 0xFF#8 _ 0#16 0#32 0xFFFFFFFF#32).trans ?_
    simp only [BitVec.and_zero]; rfl⟩

end Laws.EncodeMatchesRow

end Sys2Proof
end

