-- ==== Sys2Proof/Tests/Slice0.lean ====
section
/-! SUPPORT. The model's own tests. Expected values are the spec's (95_test_vectors.md, named by vector), or written out
from a rule. Then one witness for the hypotheses of every statement that has any. -/

namespace Sys2Proof.Tests

open Sys2Proof.Machine

/-! ### Small states -/

/-- The next state of a result, if it has one. -/
def nextOf : Result → Option State
  | .next s => some s
  | .fault _ => none
  | .refused _ => none

/-- The fault of a result, if it has one. -/
def faultOf : Result → Option Fault
  | .next _ => none
  | .fault r => some r
  | .refused _ => none

theorem of_nextOf (r : Result) (t : State) (h : nextOf r = some t) : r = .next t := by
  cases r <;> simp_all [nextOf]

theorem of_faultOf (r : Result) (f : Fault) (h : faultOf r = some f) : r = .fault f := by
  cases r <;> simp_all [faultOf]

theorem of_toOption (r : Except Fault F32) (y : F32) (h : r.toOption = some y) : r = .ok y := by
  cases r <;> simp_all [Except.toOption]

/-- What a result responds. -/
def answer (r : Result) : Option (Status × Word) :=
  ((nextOf r).bind State.response).map fun p => (p.status, p.rdata)

/-- The phase a result leaves. -/
def indexAfter (r : Result) : Option F32 := (nextOf r).map State.index

/-- The host issues one word and the block takes one step. -/
def issued (s : State) (w : CommandWord) : Result := step { s with inputs := [.command w] }

/-- ramp4 (95_test_vectors.md, conventions). -/
def ramp4 : Memory := [(0, 0x00000000#32), (1, 0x3E800000#32), (2, 0x3F000000#32), (3, 0x3F400000#32)]

/-- An oscillator over `m` with length `len`, at phase `x` with increment `c`; rate 4, depth 64. -/
def playing (wm : WrapMode) (m : Memory) (len : BitVec 16) (x c : F32) : State :=
  { State.reset with
    mode := .active, sampleRate := 4#32, tableLen := len, index := x, incr := c, table := m,
    params := { tableDepth := 64#16, wrapMode := wm } }

/-- IDLE with ramp4 loaded. -/
def loaded : State := { State.reset with table := ramp4 }

/-- ramp4 at phase 0, increment 1.0. -/
def forward : State := playing .euclidean ramp4 4#16 0x00000000#32 0x3F800000#32

/-- FMOD at phase -0.5. -/
def behind : State := playing .fmod ramp4 4#16 0xBF000000#32 0xBF000000#32

/-! ### Well-formedness: an ill-formed term for each check (R68) -/

theorem test_wellFormed_tblWr_address_too_wide : (Instr.tblWr 65536 0#32).wellFormed = false := by decide
theorem test_wellFormed_tblRd_address_too_wide : (Instr.tblRd 65536).wellFormed = false := by decide
theorem test_wellFormed_getInfo_selector_too_wide : (Instr.getInfo 65536).wellFormed = false := by decide
theorem test_wellFormed_peek_selector_too_wide : (Instr.peek 65536).wellFormed = false := by decide
theorem test_wellFormed_widest_operands :
    (Instr.tblWr 65535 0#32).wellFormed = true ∧ (Instr.peek 65535).wellFormed = true := by decide

/-! ### Decoding: a word of every constructor, written out from R60 and R64 as OPC, RSV, AUX, DATA -/

theorem test_decode_nop : decode (0x00#8 ++ 0x00#8 ++ 0x0000#16 ++ 0x00000000#32) = .ok .nop := by decide
theorem test_decode_tblWr :
    decode (0b00000001#8 ++ 0b00000000#8 ++ 0b0000000000000011#16 ++ 0b00111111010000000000000000000000#32)
      = .ok (.tblWr 3 0x3F400000#32) := by decide
theorem test_decode_tblRd :
    decode (0b00000010#8 ++ 0x00#8 ++ 0b0000000000111111#16 ++ 0x00000000#32) = .ok (.tblRd 63) := by decide
theorem test_decode_construct :
    decode (0b00000011#8 ++ 0x00#8 ++ 0b0000000001000000#16 ++ 0b00000000000000001010110001000100#32)
      = .ok (.construct 64#16 44100#32) := by decide
theorem test_decode_setFreq :
    decode (0b00000100#8 ++ 0x00#8 ++ 0x0000#16 ++ 0b01000011010111000000000000000000#32)
      = .ok (.setFreq 0x435C0000#32) := by decide
theorem test_decode_getSample : decode (0b00000101#8 ++ 0x00#8 ++ 0x0000#16 ++ 0x00000000#32) = .ok .getSample := by
  decide
theorem test_decode_getInfo :
    decode (0b00000110#8 ++ 0x00#8 ++ 0b0000000000000001#16 ++ 0x00000000#32) = .ok (.getInfo 1) := by decide
theorem test_decode_release : decode (0b00000111#8 ++ 0x00#8 ++ 0x0000#16 ++ 0x00000000#32) = .ok .release := by decide
theorem test_decode_peek :
    decode (0b00001000#8 ++ 0x00#8 ++ 0b0000000000000111#16 ++ 0x00000000#32) = .ok (.peek 7) := by decide

/-- DEC-1 to DEC-10. -/
theorem test_decode_illegal_words :
    decode 0x0900000000000000#64 = .error (.reservedOpcode 9) ∧
    decode 0xFF00000000000000#64 = .error (.reservedOpcode 255) ∧
    decode 0x0000000000000001#64 = .error .nonzeroData ∧
    decode 0x00FF000000000000#64 = .error .reservedField ∧
    decode 0x0500000000000001#64 = .error .nonzeroData ∧
    decode 0x0500000100000000#64 = .error .nonzeroAux ∧
    decode 0x0700000000000001#64 = .error .nonzeroData ∧
    decode 0x0400000100000000#64 = .error .nonzeroAux ∧
    decode 0x0601000000000000#64 = .error .reservedField ∧
    decode 0x0800000000000001#64 = .error .nonzeroData := by decide

/-- The rows of the opcode table, two by two, share no word: they differ where both masks look. -/
theorem test_opcodeTable_rows_disjoint :
    opcodeTable.Pairwise fun r r' => r.pattern &&& r'.mask ≠ r'.pattern &&& r.mask := by decide

theorem test_decodeTableWord : decodeTableWord 64 0x030000400000AC44 = some (.construct 64#16 44100#32) := by decide

/-! ### One step of each command -/

/-- LC-14, DEC-11. -/
theorem test_nop : answer (issued forward 0x0000000000000000#64) = some (.ok, 0#32) := by decide

/-- TB-12: -0.0 is stored as given. -/
theorem test_tblWr_keeps_negative_zero :
    (nextOf (issued loaded 0x0100003F80000000#64)).map (fun t => Memory.read t.table 63) = some (some 0x80000000#32) := by
  decide

/-- TB-27, TB-30: the mode is checked before the range, the range before the value. -/
theorem test_tblWr_check_order :
    answer (issued loaded 0x0100FFFF7FC00000#64) = some (.errRange, 0#32) ∧
      answer (issued forward 0x010000467FC00000#64) = some (.errState, 0#32) := by decide

/-- TB-29. -/
theorem test_tblRd_active : answer (issued forward 0x0200000300000000#64) = some (.ok, 0x3F400000#32) := by decide

/-- TB-22. -/
theorem test_tblRd_unwritten : faultOf (issued loaded 0x0200000500000000#64) = some .unwrittenTableRead := by decide

/-- LC-11. -/
theorem test_construct :
    (nextOf (issued loaded 0x030000400000AC44#64)).map
        (fun t => (t.mode, t.tableLen, t.sampleRate, t.index, t.incr)) =
      some (.active, 64#16, 44100#32, 0#32, 0#32) := by decide

/-- LC-2, LC-4. -/
theorem test_construct_check_order :
    answer (issued loaded 0x030000410000AC44#64) = some (.errInvalidTable, 0#32) ∧
      answer (issued loaded 0x0300000000000000#64) = some (.errInvalidTable, 0#32) := by decide

/-- LC-10; the table survives (R85). -/
theorem test_release :
    (nextOf (issued forward 0x0700000000000000#64)).map (fun t => (t.mode, t.tableLen, t.sampleRate, t.incr)) =
        some (.idle, 0#16, 0#32, 0#32) ∧
      (nextOf (issued forward 0x0700000000000000#64)).map State.table = some ramp4 := by decide

/-- PA-F1: 220.0 Hz, L = 64, SR = 44100. -/
theorem test_setFreq :
    (nextOf (issued { forward with tableLen := 64#16, sampleRate := 44100#32 } 0x04000000435C0000#64)).map State.incr =
      some 0x3EA377EE#32 := by decide

/-- R101: 2^125 by L = 8 is 2^128, the first product that overflows. -/
theorem test_setFreq_overflow :
    answer (issued { forward with tableLen := 8#16 } 0x040000007E000000#64) = some (.errNonfinite, 0#32) := by decide

/-- Program P2, line 9: the last interval blends entry 3 into entry 0, and the phase moves down. -/
theorem test_getSample_last_interval :
    let r := issued (playing .euclidean ramp4 4#16 0x40600000#32 0xBF000000#32) 0x0500000000000000#64
    answer r = some (.ok, 0x3EC00000#32) ∧ indexAfter r = some 0x40400000#32 := by decide

/-- SS-7: under FMOD a negative phase answers ERR_PHASE, sets FAULT and stays. -/
theorem test_getSample_negative_phase :
    (nextOf (issued behind 0x0500000000000000#64)).map (fun t => (t.response, t.fault, t.index)) =
      some (some ⟨.errPhase, 0#32⟩, true, 0xBF000000#32) := by decide

/-- SS-13. -/
theorem test_getInfo :
    answer (issued forward 0x0600000000000000#64) = some (.ok, 1#32) ∧
      answer (issued forward 0x0600000400000000#64) = some (.errRange, 0#32) := by decide

/-- SS-12, ST-1, ST-2. -/
theorem test_peek :
    answer (issued State.reset 0x0800000400000000#64) = some (.ok, 0x00400000#32) ∧
      answer (issued { behind with mode := .idle } 0x0800000400000000#64) = some (.ok, 0x00400004#32) ∧
      answer (issued State.reset 0x0800000500000000#64) = some (.errRange, 0#32) := by decide

/-! ### Arithmetic: the vectors of sections 5 and 6 -/

/-- PA-F9 to PA-F15: the rounded rate, a subnormal kept, a large finite increment. -/
theorem test_increment_vectors :
    increment 0x3F800000#32 1#16 4294967295#32 = 0x2F800000#32 ∧
    increment 0x7C000000#32 64#16 44100#32 = 0x773E37C6#32 ∧
    increment 0x00000001#32 4#16 4#32 = 0x00000001#32 ∧
    increment 0x3F800000#32 4#16 16777217#32 = 0x34800000#32 ∧
    increment 0x80000000#32 64#16 44100#32 = 0x80000000#32 := by decide

/-- PA-W1, PA-W3, PA-W5, PA-W6, PA-W7, PA-W9, PA-W12. -/
theorem test_wrapE_vectors :
    wrapE 0xBF000000#32 4#16 = 0x40600000#32 ∧ wrapE 0xC0800000#32 4#16 = 0x00000000#32 ∧
    wrapE 0xC2C88000#32 4#16 = 0x40700000#32 ∧ wrapE 0xB0800000#32 64#16 = 0x00000000#32 ∧
    wrapE 0x3F7533E5#32 64#16 = 0x3F7533E5#32 ∧ wrapE 0xC2C88000#32 64#16 = 0x41DE0000#32 ∧
    wrapE 0xB2800000#32 4#16 = 0x00000000#32 := by decide

/-- PA-W3, PA-W9, PA-W14. -/
theorem test_wrapF_vectors :
    wrapF 0xC0800000#32 4#16 = 0x80000000#32 ∧ wrapF 0xC2C88000#32 64#16 = 0xC2110000#32 ∧
    wrapF 0xC1100000#32 4#16 = 0xBF800000#32 := by decide

/-- LI-6, LI-7, LI-8, LI-9, LI-11, LI-15. -/
theorem test_blend_vectors :
    blend 0x00000000#32 0 0x80000000#32 0x3F800000#32 = 0x00000000#32 ∧
    blend 0x00000000#32 0 0x80000000#32 0xBF800000#32 = 0x80000000#32 ∧
    blend 0x3E99999A#32 0 0x3DCCCCCD#32 0x3E4CCCCD#32 = 0x3E051EB8#32 ∧
    blend 0x00000001#32 0 0x00000000#32 0x3F800000#32 = 0x00000001#32 ∧
    blend 0x402CCCCD#32 2 0x3E99999A#32 0x3DCCCCCD#32 = 0x3E23D70A#32 ∧
    blend 0x80000000#32 0 0x3F800000#32 0xBF800000#32 = 0x3F800000#32 := by decide

/-- R140, R61: the response's 36 bits. -/
theorem test_response_bits : Response.bits ⟨.errPhase, 0xDEADBEEF#32⟩ = 0x7DEADBEEF#36 := by decide

/-! ### Assembler and images -/

/-- R68, R80, R90, R101: the spec's own lines and words; a comment, a hexadecimal literal. -/
theorem test_assemble_commands :
    assemble (fun _ => [])
        "TBL_WR 3, 0.75\nCONSTRUCT 64, 44100 ; rate\nSET_FREQ 0xC35C0000\nGET_INFO RATE\nPEEK 7".toList =
      some [0x010000033F400000#64, 0x030000400000AC44#64, 0x04000000C35C0000#64, 0x0600000100000000#64,
        0x0800000700000000#64] := by decide

/-- R69: decimal literals go through `fl` (1e-45 is the smallest subnormal; -0.0 keeps its sign; SS-5). -/
theorem test_parse_literals :
    parseF32 "1e-45".toList = some 0x00000001#32 ∧ parseF32 "-0.0".toList = some 0x80000000#32 ∧
      parseF32 "-0.5".toList = some 0xBF000000#32 ∧ parseF32 "220.0".toList = some 0x435C0000#32 ∧
      parseF32 "0x7FC00000".toList = some 0x7FC00000#32 := by decide

/-- R70: RESTART; R68: an operand too wide is refused. -/
theorem test_assemble_restart_and_refusal :
    assembleLine (fun _ => []) "RESTART 2, 48000".toList = some [.release, .construct 2#16 48000#32] ∧
      assembleLine (fun _ => []) "TBL_WR 65536, 1.0".toList = none ∧
      assembleLine (fun _ => []) "LOAD_SQUARE 0".toList = none ∧
      assembleLine (fun _ => []) "LOAD_SQUARE 65536".toList = none ∧
      assembleLine (fun _ => []) "LOAD_SINE 65536".toList = none := by decide

/-- R69: a decimal writes no infinity, the hexadecimal form does; the largest finite value. -/
theorem test_parse_decimal_range :
    parseF32 "1e39".toList = none ∧ parseF32 "-1e39".toList = none ∧ parseF32 "0x7F800000".toList = some 0x7F800000#32 ∧
      parseF32 "3.4028235e38".toList = some 0x7F7FFFFF#32 := by decide

/-- TB-1, TB-3, TB-6. -/
theorem test_square_images :
    buildSquare 1 = [0xBF800000#32] ∧ buildSquare 2 = [0xBF800000#32, 0xBF800000#32] ∧
      buildSquare 5 = [0xBF800000#32, 0xBF800000#32, 0xBF800000#32, 0x3F800000#32, 0x3F800000#32] := by decide

/-! ### Witnesses: a state and operands that meet all the hypotheses of each statement together -/

/-- An entry past the length is written too. -/
def longer : State := playing .euclidean (ramp4 ++ [(9, 0x3F800000#32)]) 4#16 0x00000000#32 0x3F800000#32

theorem witness_HardwareResetFromEveryState :
    ({ behind with inputs := [.reset] } : State).inputs = .reset :: [] ∧
      ({ behind with inputs := [.resetDuring 0#64] } : State).inputs = .resetDuring 0#64 :: [] := ⟨rfl, rfl⟩

theorem witness_StepRunsDecodedCommand :
    ({ forward with inputs := [.command 0x0500000000000000#64] } : State).inputs =
        .command 0x0500000000000000#64 :: [] ∧
      decode 0x0500000000000000#64 = .ok .getSample ∧ (Instr.peek 65535).WellFormed := ⟨rfl, by decide, by decide⟩

theorem witness_WaitingBlockHoldsState : forward.inputs = [] := rfl

/-- A command that answers with a next state, for the statements over every step of a command: an OK pull. -/
def pullTaken : State := { forward with
  inputs := [], index := 0x3F800000#32, response := some ⟨.ok, 0x00000000#32⟩ }

theorem pull_step : step { forward with inputs := [.command 0x0500000000000000#64] } = .next pullTaken :=
  of_nextOf _ _ (by decide)

/-- A command refused by a check: TBL_WR in ACTIVE. -/
theorem refused_step :
    step { forward with inputs := [.command 0x010000033F800000#64] } =
      .next { forward with inputs := [], response := some ⟨.errState, 0#32⟩ } := of_nextOf _ _ (by decide)

/-- ERR_PHASE. -/
theorem errPhase_step :
    step { behind with inputs := [.command 0x0500000000000000#64] } =
      .next { behind with inputs := [], fault := true, response := some ⟨.errPhase, 0#32⟩ } := of_nextOf _ _ (by decide)

theorem witness_OneResponsePerCommand :
    ∃ (s t : State) (w : CommandWord) (rest : List HostInput),
      s.inputs = .command w :: rest ∧ step s = .next t ∧ decode w = .ok .getSample :=
  ⟨_, _, _, [], rfl, pull_step, by decide⟩

/-- A command with no result: NOP. -/
theorem witness_OneResponsePerCommand_noResult :
    decode 0x0000000000000000#64 = .ok .nop ∧ hasResult .nop = false := by decide

theorem witness_DecodeFollowsOpcodeTable_match :
    opcodeTable[8].Matches 0x0800FFFF00000000#64 := by decide

theorem witness_DecodeFollowsOpcodeTable_noMatch :
    (∀ r ∈ opcodeTable, ¬ r.Matches 0x0900000000000000#64) ∧ (∀ r ∈ opcodeTable, ¬ r.Matches 0x0000000000000001#64) := by
  decide

theorem witness_ReservedAndMustBeZeroFieldsIllegal :
    ({ forward with inputs := [.command 0x0900000000000000#64] } : State).inputs =
        .command 0x0900000000000000#64 :: [] ∧ 0x09 ≤ (opcField 0x0900000000000000#64).toNat ∧ rsvField 0x0801000000000000#64 ≠ 0x00#8 ∧
      ((opcField 0x0700000100000000#64).toNat ∈ [0x00, 0x04, 0x05, 0x07] ∧
        auxField 0x0700000100000000#64 ≠ 0x0000#16) ∧
      ((opcField 0x0800000080000000#64).toNat ∈ [0x00, 0x02, 0x05, 0x06, 0x07, 0x08] ∧
        dataField 0x0800000080000000#64 ≠ 0x00000000#32) := by decide

theorem witness_DecodeOfEncodeIsIdentity : (Instr.tblWr 65535 0xFFFFFFFF#32).WellFormed := by decide

theorem witness_EncodeOfDecodeIsIdentity : decode 0x0300FFFFFFFFFFFF#64 = .ok (.construct 0xFFFF#16 0xFFFFFFFF#32) := by
  decide

theorem witness_AssembledWordsDecode :
    assemble (fun _ => []) "GET_SAMPLE".toList = some [0x0500000000000000#64] := by decide

theorem witness_FailedCommandChangesNothing :
    ∃ (s t : State) (w : CommandWord) (rest : List HostInput) (r : Response),
      s.inputs = .command w :: rest ∧ step s = .next t ∧ t.response = some r ∧ r.status ≠ .ok :=
  ⟨_, _, _, [], _, rfl, refused_step, rfl, by decide⟩

theorem witness_FailedCommandChangesNothing_errPhase :
    ∃ (s t : State) (w : CommandWord) (rest : List HostInput) (r : Response),
      s.inputs = .command w :: rest ∧ step s = .next t ∧ t.response = some r ∧ r.status = .errPhase :=
  ⟨_, _, _, [], _, rfl, errPhase_step, rfl, rfl⟩

theorem witness_StatusByCommand :
    ∃ (s t : State) (w : CommandWord) (rest : List HostInput), s.inputs = .command w :: rest ∧ step s = .next t :=
  ⟨_, _, _, [], rfl, refused_step⟩

theorem witness_WrongModeAnswersErrState :
    (State.reset.mode = .idle ∧ activeOnly (.getInfo 9) = true) ∧
      (forward.mode = .active ∧ idleOnly (.construct 0#16 0#32) = true) := by decide

theorem witness_ModeWrittenOnlyByConstructAndRelease :
    (∃ t, exec (.construct 64#16 1#32) State.reset = .next t ∧ t.mode ≠ State.reset.mode) ∧
      ∃ t, exec .release forward = .next t ∧ t.mode ≠ forward.mode :=
  ⟨⟨_, rfl, by decide⟩, ⟨_, rfl, by decide⟩⟩

/-- `behind` meets the invariant: FMOD, ACTIVE, phase -0.5 below L = 4. -/
theorem behind_inv : Inv behind :=
  { params := by decide
    table := { canonical := by decide, inRange := by decide, finite := by decide }
    idle := fun h => by cases h
    active := fun _ =>
      { lenPos := by decide, lenLe := by decide, rate := by decide, incrFinite := by decide, indexFinite := by decide
        indexBound := by decide, euclidean := fun h => by cases h }
    faultFmod := fun _ => rfl }

/-- `forward` meets the invariant: EUCLIDEAN, ACTIVE, phase +0.0. -/
theorem forward_inv : Inv forward :=
  { params := by decide
    table := { canonical := by decide, inRange := by decide, finite := by decide }
    idle := fun h => by cases h
    active := fun _ =>
      { lenPos := by decide, lenLe := by decide, rate := by decide, incrFinite := by decide, indexFinite := by decide
        indexBound := by decide, euclidean := fun _ => by decide }
    faultFmod := fun h => by cases h }

/-- The port and the response are outside the invariant. -/
theorem inv_inputs (s : State) (l : List HostInput) (h : Inv s) : Inv { s with inputs := l } :=
  { params := h.params
    table := { canonical := h.table.canonical, inRange := h.table.inRange, finite := h.table.finite }
    idle := fun hm => { len := (h.idle hm).len, rate := (h.idle hm).rate, index := (h.idle hm).index
                        incr := (h.idle hm).incr }
    active := fun hm =>
      { lenPos := (h.active hm).lenPos, lenLe := (h.active hm).lenLe, rate := (h.active hm).rate
        incrFinite := (h.active hm).incrFinite, indexFinite := (h.active hm).indexFinite
        indexBound := (h.active hm).indexBound, euclidean := (h.active hm).euclidean }
    faultFmod := h.faultFmod }

/-- FAULT set, then hardware reset clears it. -/
theorem witness_FaultStickyAndSetOnlyByErrPhase_set :
    ∃ s t, Inv s ∧ step s = .next t ∧ s.fault = false ∧ t.fault = true :=
  ⟨_, _, inv_inputs behind _ behind_inv, errPhase_step, rfl, rfl⟩

/-- `behind` with FAULT set still meets the invariant. -/
theorem behind_fault_inv : Inv { behind with fault := true } :=
  { params := behind_inv.params
    table := { canonical := by decide, inRange := by decide, finite := by decide }
    idle := fun h => by cases h
    active := fun _ =>
      { lenPos := by decide, lenLe := by decide, rate := by decide, incrFinite := by decide, indexFinite := by decide
        indexBound := by decide, euclidean := fun h => by cases h }
    faultFmod := fun _ => rfl }

theorem witness_FaultStickyAndSetOnlyByErrPhase_cleared :
    ∃ s t, Inv s ∧ step s = .next t ∧ s.fault = true ∧ t.fault = false :=
  ⟨_, _, inv_inputs _ [.reset] behind_fault_inv, rfl, rfl, rfl⟩

theorem witness_EntryWrittenOnlyByTblWrInIdle :
    ∃ t, exec (.tblWr 63 0x80000000#32) loaded = .next t ∧ Memory.read t.table 63 ≠ Memory.read loaded.table 63 :=
  ⟨_, rfl, by decide⟩

theorem witness_OscillatorElementsWrittenOnlyByTheirCommands :
    (∃ t, exec .getSample forward = .next t ∧ t.index ≠ forward.index) ∧
      (∃ t, exec (.setFreq 0x40000000#32) forward = .next t ∧ t.incr ≠ forward.incr) ∧
      ∃ t, exec .release forward = .next t ∧ t.sampleRate ≠ forward.sampleRate ∧ t.tableLen ≠ forward.tableLen :=
  ⟨⟨{ forward with index := 0x3F800000#32, response := some ⟨.ok, 0#32⟩ }, of_nextOf _ _ (by decide), by decide⟩,
    ⟨{ forward with incr := 0x40000000#32, response := some ⟨.ok, 0#32⟩ }, of_nextOf _ _ (by decide), by decide⟩,
    ⟨_, rfl, by decide, by decide⟩⟩

theorem witness_InvariantKeptByEveryStep : ∃ s t, Inv s ∧ step s = .next t :=
  ⟨_, _, inv_inputs forward _ forward_inv, pull_step⟩

theorem witness_LerpNeverLeavesItsDomain : ∃ s, Inv s ∧ s.mode = .active := ⟨_, behind_inv, rfl⟩

theorem witness_TblWrStoresTheEntry :
    loaded.mode = .idle ∧ 63 < loaded.params.tableDepth.toNat ∧ f32IsFinite 0xFF7FFFFF#32 = true := by decide

theorem witness_TblWrRefusals :
    loaded.mode = .idle ∧ loaded.params.tableDepth.toNat ≤ 64 ∧
      (63 < loaded.params.tableDepth.toNat ∧ f32IsFinite 0x7F800000#32 = false) := by decide

theorem witness_TblRdAnswersTheEntry :
    3 < forward.params.tableDepth.toNat ∧ Memory.read forward.table 3 = some 0x3F400000#32 := by decide

theorem witness_TblRdRangeAndUnwritten :
    loaded.params.tableDepth.toNat ≤ 64 ∧
      (63 < loaded.params.tableDepth.toNat ∧ Memory.written loaded.table 63 = false) := by decide

theorem witness_SquareImageFollowsTheBoundaryPolicy : 1 ≤ 1 ∧ 64 / 2 < (buildSquare 64).length := by decide

/-- Two values, written through the port. -/
def loading : State := { State.reset with
  inputs := ((AsmLine.loadTable [0x80000000#32, 0x3F800000#32]).expand fun _ => []).map (fun i => .command (encode i)) ++
    [.reset] }

theorem witness_LoadTableLeavesTheValues :
    loading.mode = .idle ∧ [0x80000000#32, 0x3F800000#32].length ≤ loading.params.tableDepth.toNat ∧
      (∀ v ∈ [0x80000000#32, 0x3F800000#32], f32IsFinite v = true) ∧
      loading.inputs = ((AsmLine.loadTable [0x80000000#32, 0x3F800000#32]).expand fun _ => []).map
        (fun i => .command (encode i)) ++ [.reset] :=
  ⟨rfl, by decide, by simp only [List.forall_mem_cons, List.not_mem_nil, false_implies, implies_true]; decide, rfl⟩

theorem witness_ConstructMakesTheOscillator :
    loaded.mode = .idle ∧ 1 ≤ (64#16).toNat ∧ (64#16).toNat ≤ loaded.params.tableDepth.toNat ∧
      (0xFFFFFFFF#32 : Word) ≠ 0#32 := by decide

theorem witness_ConstructRefusals :
    loaded.mode = .idle ∧ loaded.params.tableDepth.toNat < (65#16).toNat ∧
      (1 ≤ (1#16).toNat ∧ (1#16).toNat ≤ loaded.params.tableDepth.toNat) := by decide

theorem witness_ReleaseDestroysTheOscillator : forward.mode = .active := rfl

theorem witness_SetFreqWritesTheIncrement :
    forward.mode = .active ∧ forward.sampleRate ≠ 0#32 ∧ f32IsFinite 0xC35C0000#32 = true ∧
      f32IsFinite (f32Mul 0xC35C0000#32 (toF32 forward.tableLen.toNat)) = true := by decide

theorem witness_SetFreqRefusals :
    forward.mode = .active ∧ forward.sampleRate ≠ 0#32 ∧ f32IsFinite 0x7FC00000#32 = false ∧
      f32IsFinite (f32Mul 0x7E800000#32 (toF32 forward.tableLen.toNat)) = false := by decide

theorem witness_IncrementFormulaAndItsResults :
    (1#16 : BitVec 16) ≠ 0#16 ∧ (0xFFFFFFFF#32 : BitVec 32) ≠ 0#32 ∧ f32IsNaN 0x3F800000#32 = false ∧
      f32IsFinite 0x3F800000#32 = true ∧ f32IsFinite (f32Mul 0x3F800000#32 (toF32 1)) = true ∧
      f32Magnitude 0x80000000#32 = 0 := by decide

theorem witness_EuclideanWrapStaysInRange :
    f32IsFinite 0x41100000#32 = true ∧ (4#16 : BitVec 16) ≠ 0#16 ∧ f32Sign 0x41100000#32 = false ∧
      f32Scaled (f32Fmod 0xC0800000#32 (toF32 4)) = 0 ∧ f32Scaled (f32Fmod 0xB2800000#32 (toF32 4)) < 0 := by decide

theorem witness_ReferenceWrapKeepsTheSign : f32IsFinite 0xC0800000#32 = true ∧ (65535#16 : BitVec 16) ≠ 0#16 := by decide

/-- ramp4 at phase 0.5, silent. -/
def frozen : State := playing .euclidean ramp4 4#16 0x3F000000#32 0x80000000#32

theorem frozen_inv : Inv frozen :=
  { params := by decide
    table := { canonical := by decide, inRange := by decide, finite := by decide }
    idle := fun h => by cases h
    active := fun _ =>
      { lenPos := by decide, lenLe := by decide, rate := by decide, incrFinite := by decide, indexFinite := by decide
        indexBound := by decide, euclidean := fun _ => by decide }
    faultFmod := fun h => by cases h }

/-- SS-2: the sample at phase 0.5 of ramp4 is 0.125. -/
theorem witness_ZeroIncrementFreezesThePhase :
    ∃ t, Inv frozen ∧ frozen.mode = .active ∧ f32Magnitude frozen.incr = 0 ∧ 0 ≤ f32Scaled frozen.index ∧
      f32Sign frozen.index = false ∧ exec .getSample frozen = .next t :=
  ⟨{ frozen with response := some ⟨.ok, 0x3E000000#32⟩ }, frozen_inv, rfl, by decide, by decide, by decide,
    of_nextOf _ _ (by decide)⟩

/-- FMOD at the phase -0.0, silent. -/
def frozenBehind : State := playing .fmod ramp4 4#16 0x80000000#32 0x00000000#32

theorem frozenBehind_inv : Inv frozenBehind :=
  { params := by decide
    table := { canonical := by decide, inRange := by decide, finite := by decide }
    idle := fun h => by cases h
    active := fun _ =>
      { lenPos := by decide, lenLe := by decide, rate := by decide, incrFinite := by decide, indexFinite := by decide
        indexBound := by decide, euclidean := fun h => by cases h }
    faultFmod := fun _ => rfl }

/-- The phase -0.0: the sample is entry 0's value (R111 item 5), and -0.0 ⊕ +0.0 is +0.0 (R8). -/
theorem witness_ZeroIncrementFreezesThePhase_negativeZero :
    ∃ t, Inv frozenBehind ∧ frozenBehind.mode = .active ∧ f32Magnitude frozenBehind.incr = 0 ∧
      0 ≤ f32Scaled frozenBehind.index ∧ f32Sign frozenBehind.index = true ∧ exec .getSample frozenBehind = .next t :=
  ⟨{ frozenBehind with index := 0x00000000#32, response := some ⟨.ok, 0x00000000#32⟩ }, frozenBehind_inv, rfl, by decide,
    by decide, by decide, of_nextOf _ _ (by decide)⟩

/-- Phase 3 and increment -9.0 (k + j = -6): under EUCLIDEAN, and under FMOD. -/
theorem witness_IntegerIncrementReadsExactEntries :
    let s (wm : WrapMode) := playing wm ramp4 4#16 0x40400000#32 0xC1100000#32
    ∀ wm ∈ [WrapMode.euclidean, WrapMode.fmod],
      (s wm).mode = .active ∧ 3 < (s wm).tableLen.toNat ∧ (s wm).params.wrapMode = wm ∧
        f32IsFinite (s wm).index = true ∧ f32Scaled (s wm).index = ((3 * f32Unit : Nat) : Int) ∧
        f32IsFinite (s wm).incr = true ∧ f32Scaled (s wm).incr = -9 * (f32Unit : Int) ∧
        Memory.read (s wm).table 3 = some 0x3F400000#32 ∧
        Memory.read (s wm).table ((3 + 1) % (s wm).tableLen.toNat) = some 0x00000000#32 ∧
        f32IsFinite 0x3F400000#32 = true ∧ f32IsFinite 0x00000000#32 = true ∧
        (((3 : Nat) : Int) + -9).natAbs ≤ 2 ^ 24 := by decide

/-- FMOD's non-negative clause at its boundary, k + j = 0; and the largest sum that is exact. -/
theorem witness_IntegerIncrementReadsExactEntries_bounds :
    f32Sign 0x40400000#32 = false ∧ (0 : Int) ≤ ((3 : Nat) : Int) + -3 ∧
      (((3 : Nat) : Int) + 16777213).natAbs ≤ 2 ^ 24 := by decide

/-- The smallest phase, -0.0; and the last interval of the longest table. -/
theorem witness_BlendWeightIsExactAndResultNeverNaN :
    (f32IsFinite 0x80000000#32 = true ∧ ((0 * f32Unit : Nat) : Int) ≤ f32Scaled 0x80000000#32 ∧
        f32Scaled 0x80000000#32 < (((0 + 1) * f32Unit : Nat) : Int)) ∧
      (f32IsFinite 0x477FFEFF#32 = true ∧ ((65534 * f32Unit : Nat) : Int) ≤ f32Scaled 0x477FFEFF#32 ∧
        f32Scaled 0x477FFEFF#32 < (((65534 + 1) * f32Unit : Nat) : Int) ∧ 65534 + 1 ≤ 65535) ∧
      f32IsFinite 0x7F7FFFFF#32 = true ∧ f32IsFinite 0x3F800000#32 = true := by decide

theorem witness_IntegerPhaseIsExactLookup :
    65535 ≤ 65535 ∧ f32IsFinite 0x80000000#32 = true ∧ f32IsFinite 0x00000000#32 = true := by decide

theorem ramp4_nominal (a : Nat) (v : F32) (h : Memory.read ramp4 a = some v) :
    f32IsFinite v = true ∧ f32Magnitude v ≤ f32Unit := by
  have hm : (a, v) ∈ ramp4 := Memory.mem_of_read _ _ _ h
  simp only [ramp4, List.mem_cons, Prod.mk.injEq, List.not_mem_nil, or_false] at hm
  obtain ⟨-, rfl⟩ | ⟨-, rfl⟩ | ⟨-, rfl⟩ | ⟨-, rfl⟩ := hm <;> decide

theorem witness_LerpStaysInNominalRange :
    (∀ (a : Nat) (v : F32), a < frozen.tableLen.toNat → Memory.read frozen.table a = some v →
      f32IsFinite v = true ∧ f32Magnitude v ≤ f32Unit) ∧ lerp frozen 0x3F000000#32 = .ok 0x3E000000#32 :=
  ⟨fun a v _ h => ramp4_nominal a v h, of_toOption _ _ (by decide)⟩

theorem witness_SampleIgnoresEntriesPastTheLength :
    ∃ t, 1 ≤ longer.tableLen.toNat ∧
      (∀ a, a < longer.tableLen.toNat → Memory.read ramp4 a = Memory.read longer.table a) ∧
      exec .getSample longer = .next t :=
  ⟨{ longer with index := 0x3F800000#32, response := some ⟨.ok, 0#32⟩ }, by decide, by decide, of_nextOf _ _ (by decide)⟩

/-- The last interval: k = 3, the next entry is entry 0. -/
theorem witness_GetSampleAnswersThenAdvances :
    let s := playing .euclidean ramp4 4#16 0x40600000#32 0xBF000000#32
    s.mode = .active ∧ f32IsFinite s.index = true ∧ ((3 * f32Unit : Nat) : Int) ≤ f32Scaled s.index ∧
      f32Scaled s.index < (((3 + 1) * f32Unit : Nat) : Int) ∧ 3 < s.tableLen.toNat ∧
      Memory.read s.table 3 = some 0x3F400000#32 ∧
      Memory.read s.table ((3 + 1) % s.tableLen.toNat) = some 0x00000000#32 := by decide

theorem witness_NegativePhaseAnswersErrPhase :
    behind.mode = .active ∧ f32IsFinite behind.index = true ∧ f32Scaled behind.index < 0 := by decide

/-- SS-16: entry 0 is written, entry 1 is not. -/
theorem witness_PullOfUnwrittenEntryFaults :
    let s := playing .euclidean [(0, 0x3F000000#32)] 2#16 0x00000000#32 0x3E800000#32
    s.mode = .active ∧ f32IsFinite s.index = true ∧ ((0 * f32Unit : Nat) : Int) ≤ f32Scaled s.index ∧
      f32Scaled s.index < (((0 + 1) * f32Unit : Nat) : Int) ∧ 0 < s.tableLen.toNat ∧
      Memory.written s.table ((0 + 1) % s.tableLen.toNat) = false := by decide

theorem witness_EveryPullAnswersASample :
    Inv forward ∧ forward.mode = .active ∧ 0 ≤ f32Scaled forward.index ∧
      ∀ a, a < forward.tableLen.toNat → Memory.written forward.table a = true :=
  ⟨forward_inv, rfl, by decide, by decide⟩

/-- Five pulls at the port: one more than the table is long. -/
theorem witness_UnitIncrementPlaysTheTablePeriodically :
    ∃ s : State, Inv s ∧ s.mode = .active ∧ s.index = 0x00000000#32 ∧ s.incr = 0x3F800000#32 ∧
      (∀ a, a < s.tableLen.toNat → Memory.written s.table a = true) ∧
      s.inputs = ((AsmLine.pull 5).expand fun _ => []).map (fun i => .command (encode i)) ++ [.reset] :=
  ⟨_, inv_inputs forward _ forward_inv, rfl, rfl, rfl, by decide, rfl⟩

/-- Program P5, line 8: SET_FREQ 2.0 on ramp4 at rate 4. -/
theorem witness_FrequencyChangeShowsAfterTheNextPull :
    ∃ t u, exec (.setFreq 0x40000000#32) forward = .next t ∧ t.response = some ⟨.ok, 0#32⟩ ∧
      exec .getSample forward = .next u ∧ ∃ y, u.response = some ⟨.ok, y⟩ :=
  ⟨{ forward with incr := 0x40000000#32, response := some ⟨.ok, 0#32⟩ },
    { forward with index := 0x3F800000#32, response := some ⟨.ok, 0#32⟩ },
    of_nextOf _ _ (by decide), rfl, of_nextOf _ _ (by decide), _, rfl⟩

theorem witness_GetInfoAnswersTheMetadata : forward.mode = .active ∧ 4 ≤ 4 := by decide

/-- Every selector of PEEK, the last one and the first past it; the reserved bits' ends. -/
theorem witness_PeekAnswersTheElement :
    answer (issued forward 0x0800000000000000#64) = some (.ok, 0x00000000#32) ∧
      answer (issued forward 0x0800000100000000#64) = some (.ok, 0x3F800000#32) ∧
      answer (issued forward 0x0800000200000000#64) = some (.ok, 4#32) ∧
      answer (issued forward 0x0800000300000000#64) = some (.ok, 4#32) ∧
      answer (issued forward 0x0800000400000000#64) = some (.ok, 0x00400001#32) ∧ 5 ≤ 5 := by decide

theorem witness_StatusWordLayout : 3 ≤ 3 ∧ 3 ≤ 15 ∧ 15 ≤ 15 := by decide

theorem witness_IntegerConversionIsCorrectlyRounded : 2 ^ 24 ≤ 2 ^ 24 := by decide

theorem witness_EuclideanRunsAreClean :
    ∃ s t seen, Inv s ∧ s.params.wrapMode = .euclidean ∧ observe 1 s = .next (t, seen) :=
  ⟨{ forward with inputs := [.command 0x0500000000000000#64] }, pullTaken, [⟨.ok, 0#32⟩],
    inv_inputs forward [.command 0x0500000000000000#64] forward_inv, rfl, by simp only [observe, pull_step]; rfl⟩

/-- One pair of operands for AdditionIsCorrectlyRounded, MultiplicationIsCorrectlyRounded, DivisionIsCorrectlyRounded,
FmodIsExact, ComparisonsAreNumeric, and for ZeroSumsHaveIeeeSigns and FloorIsTheGreatestIntegerBelow: the smallest
subnormal and the most negative finite datum. -/
theorem witness_finite_operands :
    f32IsFinite 0x00000001#32 = true ∧ f32IsFinite 0xFF7FFFFF#32 = true ∧ f32Magnitude 0x00000001#32 ≠ 0 ∧
      0 ≤ f32Scaled 0x00000001#32 := by decide

/-- RoundsTo's two clauses: the largest finite datum doubled overflows; one and the smallest subnormal do not. -/
theorem witness_RoundsTo :
    1 * overflowBound ≤ (f32Scaled 0x7F7FFFFF#32 + f32Scaled 0x7F7FFFFF#32).natAbs ∧
      (f32Scaled 0x3F800000#32 + f32Scaled 0x00000001#32).natAbs < 1 * overflowBound := by decide

end Sys2Proof.Tests
end

section
/-! Proofs of the statements about binary32 (R7 to R10). -/

namespace Sys2Proof.Proofs

open Sys2Proof Sys2Proof.Machine

/-! ### The sign of a value -/

/-- The sign bit of a non-zero datum is the sign of its value. -/
theorem f32Sign_eq_scaled_neg (x : F32) (h : f32Scaled x ≠ 0) : f32Sign x = decide (f32Scaled x < 0) := by
  have hpos : 0 < f32Magnitude x := by rw [← f32Scaled_natAbs]; omega
  unfold f32Scaled
  cases f32Sign x
  · simp
  · simpa using hpos

/-- The sign bits' exclusive or is the sign of a non-zero product of the values. -/
theorem f32SignXor_eq_mul_neg (x y : F32) (hx : f32Scaled x ≠ 0) (hy : f32Scaled y ≠ 0) :
    f32SignXor x y = decide (f32Scaled x * f32Scaled y < 0) := by
  rw [f32SignXor, f32Sign_eq_scaled_neg x hx, f32Sign_eq_scaled_neg y hy, Bool.eq_iff_iff, decide_eq_true_eq,
    mul_neg_iff, bne_iff_ne, ne_eq, decide_eq_decide]
  omega

/-! ### Sums, products, quotients, integers (R8) -/

/-- `⊕` rounds the exact sum (R8). -/
theorem f32Add_roundsTo (x y : F32) (hx : f32IsFinite x = true) (hy : f32IsFinite y = true) :
    RoundsTo (f32Scaled x + f32Scaled y) 1 (f32Add x y) := by
  obtain ⟨neg, hround, hneg, -⟩ := f32Add_round x y hx hy
  rw [hround]
  exact roundsTo_round _ 1 one_pos neg hneg

/-- Settles O53: `x ⊖ y` is `x ⊕ -y`, and `⊕` rounds the exact sum once. -/
theorem additionIsCorrectlyRounded : Obligations.AdditionIsCorrectlyRounded := by
  intro x y hx hy
  refine ⟨f32Add_roundsTo x y hx hy, ?_⟩
  have h := f32Add_roundsTo x (f32Neg y) hx (by rw [f32IsFinite_neg, hy])
  rwa [f32Scaled_neg, ← sub_eq_add_neg] at h

/-- Settles O54: the product of the magnitudes is rounded once, with the sign of the product. -/
theorem multiplicationIsCorrectlyRounded : Obligations.MultiplicationIsCorrectlyRounded := by
  intro x y hx hy
  rw [f32Mul_round x y hx hy]
  refine ⟨?_, f32Sign_round _ _ _⟩
  have hsign : f32Scaled x * f32Scaled y ≠ 0 → f32SignXor x y = decide (f32Scaled x * f32Scaled y < 0) :=
    fun h => f32SignXor_eq_mul_neg x y (left_ne_zero_of_mul h) (right_ne_zero_of_mul h)
  simpa only [Int.natAbs_mul, f32Scaled_natAbs] using roundsTo_round _ f32Unit f32Unit_pos _ hsign

/-- The scaled dividend with the divisor's sign is negative exactly when the product of the values is. -/
theorem dividend_neg_iff_mul_neg (a b : Int) (u : Nat) (hu : 0 < u) : a * u * b.sign < 0 ↔ a * b < 0 := by
  rw [← Int.sign_eq_neg_one_iff_neg, ← Int.sign_eq_neg_one_iff_neg, Int.sign_mul, Int.sign_mul, Int.sign_mul,
    Int.sign_sign, Int.sign_natCast_of_ne_zero hu.ne', mul_one]

/-- Settles O55: the quotient of the magnitudes is rounded once, with the sign of the quotient. -/
theorem divisionIsCorrectlyRounded : Obligations.DivisionIsCorrectlyRounded := by
  intro x y hx hy h0
  have hy0 : f32Scaled y ≠ 0 := by rwa [← Int.natAbs_ne_zero, f32Scaled_natAbs]
  rw [f32Div_round x y hx hy h0]
  refine ⟨?_, f32Sign_round _ _ _⟩
  have hsign : f32Scaled x * f32Unit * (f32Scaled y).sign ≠ 0 →
      f32SignXor x y = decide (f32Scaled x * f32Unit * (f32Scaled y).sign < 0) := fun h => by
    rw [decide_eq_decide.mpr (dividend_neg_iff_mul_neg _ _ _ f32Unit_pos)]
    exact f32SignXor_eq_mul_neg x y (left_ne_zero_of_mul (left_ne_zero_of_mul h)) hy0
  simpa only [Int.natAbs_mul, f32Scaled_natAbs, Int.natAbs_natCast, Int.natAbs_sign_of_ne_zero hy0, mul_one]
    using roundsTo_round _ (f32Magnitude y) (Nat.pos_of_ne_zero h0) _ hsign

/-- Settles O56: a zero sum has its sign bit set only when both operands do, and `x` and `-x` never do. -/
theorem zeroSumsHaveIeeeSigns : Obligations.ZeroSumsHaveIeeeSigns := by
  refine ⟨fun x hx => ?_, by decide, by decide⟩
  have hsum : f32Scaled x + f32Scaled (f32Neg x) = 0 := by rw [f32Scaled_neg, add_neg_cancel]
  obtain ⟨neg, hround, -, hzero⟩ := f32Add_round x (f32Neg x) hx (by rw [f32IsFinite_neg, hx])
  rw [hround, hsum, hzero hsum, f32Sign_neg, Bool.and_not_self]
  decide

/-- Settles O57: one rounding, exact where 24 bits hold the integer. -/
theorem integerConversionIsCorrectlyRounded : Obligations.IntegerConversionIsCorrectlyRounded := by
  intro n
  constructor
  · have hneg : ¬ ((n * f32Unit : Nat) : Int) < 0 := by omega
    exact roundsTo_round ((n * f32Unit : Nat) : Int) 1 one_pos false fun _ => (decide_eq_false hneg).symm
  · intro hn
    rw [f32Scaled, toF32_sign, toF32_magnitude n hn]
    rfl

/-! ### fmod (R9) -/

/-- The remainder of two magnitudes is a 24-bit integer at the lower of their exponents, so it is representable. -/
theorem mod_magnitude_form (x y : F32) :
    ∃ k m, f32Magnitude x % f32Magnitude y = m * 2 ^ k ∧ m < 2 ^ 24 := by
  obtain ⟨kx, mx, ex, hmx, -, -⟩ := bitsMagnitude_form (f32Bits x)
  obtain ⟨ky, my, ey, hmy, -, -⟩ := bitsMagnitude_form (f32Bits y)
  rw [f32Magnitude_eq, f32Magnitude_eq, ex, ey]
  rcases Nat.eq_zero_or_pos my with rfl | hpos
  · exact ⟨kx, mx, by simp, hmx⟩
  rcases Nat.le_total ky kx with hk | hk
  · refine ⟨ky, mx * 2 ^ (kx - ky) % my, ?_, (Nat.mod_lt _ hpos).trans hmy⟩
    rw [← Nat.mul_mod_mul_right, mul_assoc, ← pow_add, Nat.sub_add_cancel hk]
  · refine ⟨kx, mx % (my * 2 ^ (ky - kx)), ?_, (Nat.mod_le _ _).trans_lt hmx⟩
    rw [← Nat.mul_mod_mul_right, mul_assoc, ← pow_add, Nat.sub_add_cancel hk]

/-- Everything `fmod` can do in its domain: the magnitudes' remainder, exactly, with the sign bit of `x` (R9). -/
theorem f32Fmod_exact (x y : F32) (hx : f32IsFinite x = true) (hy : f32IsFinite y = true)
    (h0 : f32Magnitude y ≠ 0) :
    f32IsFinite (f32Fmod x y) = true ∧ f32Sign (f32Fmod x y) = f32Sign x ∧
      f32Magnitude (f32Fmod x y) = f32Magnitude x % f32Magnitude y := by
  have heq : f32Fmod x y = f32Round (f32Sign x) (f32Magnitude x % f32Magnitude y) 1 := by
    simp [f32Fmod, hx, hy, h0]
  have hlt : f32Magnitude x % f32Magnitude y < overflowBound :=
    (Nat.mod_lt _ (Nat.pos_of_ne_zero h0)).trans (f32Magnitude_lt_overflow y hy)
  obtain ⟨k, m, hform, hm⟩ := mod_magnitude_form x y
  rw [heq, f32IsFinite_round _ _ _ one_pos, one_mul, f32Sign_round, f32Magnitude_round]
  refine ⟨hlt, rfl, ?_⟩
  rw [hform] at hlt ⊢
  exact roundMagnitude_of_form k m hm hlt

/-- The truncated remainder of two values is that of their magnitudes, with the sign of the dividend. -/
theorem f32Scaled_tmod (x y : F32) :
    (f32Scaled x).tmod (f32Scaled y) =
      if f32Sign x then -((f32Magnitude x % f32Magnitude y : Nat) : Int)
      else ((f32Magnitude x % f32Magnitude y : Nat) : Int) := by
  unfold f32Scaled
  cases f32Sign x <;> cases f32Sign y <;> simp [Int.neg_tmod, Int.tmod_neg, Int.tmod_eq_emod_of_nonneg]

/-- Settles O58: the remainder of the magnitudes is representable, so the rounding in `fmod` changes nothing. -/
theorem fmodIsExact : Obligations.FmodIsExact := by
  intro x y hx hy h0
  obtain ⟨hfin, hsign, hmag⟩ := f32Fmod_exact x y hx hy h0
  refine ⟨hfin, ?_, hsign, ?_⟩
  · rw [← Int.tmod_def, f32Scaled_tmod, f32Scaled, hsign, hmag]
  · rw [hmag]
    exact Nat.mod_lt _ (Nat.pos_of_ne_zero h0)

/-! ### floor (R10) -/

/-- Settles O59: `floor` is Euclidean division by the positive unit. -/
theorem floorIsTheGreatestIntegerBelow : Obligations.FloorIsTheGreatestIntegerBelow := by
  have hu : (0 : Int) < f32Unit := by exact_mod_cast f32Unit_pos
  refine ⟨fun x _ => ⟨?_, fun n hn => ?_, fun h => ?_⟩, by decide, by decide⟩
  · exact Int.ediv_mul_le _ hu.ne'
  · exact (Int.le_ediv_iff_mul_le hu).mpr hn
  · exact (Int.tdiv_eq_ediv_of_nonneg h).symm

/-! ### Comparisons (R7) -/

/-- The ordering key is the datum's other 31 bits with its sign. -/
theorem f32Key_eq (x : F32) : f32Key x = if f32Sign x then -(f32Bits x : Int) else (f32Bits x : Int) := by
  have hlt := x.isLt
  unfold f32Key f32Bits
  rw [f32Sign_eq]
  split
  · rfl
  next h =>
    rw [decide_eq_true_eq] at h
    omega

/-- The key orders the data as their values do, because magnitudes are ordered as their bits are. -/
theorem f32Key_lt_iff (x y : F32) : f32Key x < f32Key y ↔ f32Scaled x < f32Scaled y := by
  have hzero : bitsMagnitude 0 = 0 := rfl
  have hxy := bitsMagnitude_lt_iff (f32Bits x) (f32Bits y)
  have hyx := bitsMagnitude_lt_iff (f32Bits y) (f32Bits x)
  have hx0 := bitsMagnitude_lt_iff 0 (f32Bits x)
  have hy0 := bitsMagnitude_lt_iff 0 (f32Bits y)
  rw [f32Key_eq, f32Key_eq, f32Scaled, f32Scaled, f32Magnitude_eq, f32Magnitude_eq]
  rw [hzero] at hx0 hy0
  split <;> split <;> omega

theorem f32Key_eq_iff (x y : F32) : f32Key x = f32Key y ↔ f32Scaled x = f32Scaled y := by
  have hxy := f32Key_lt_iff x y
  have hyx := f32Key_lt_iff y x
  omega

/-- Settles O60: no finite datum is NaN, and the keys compare as the values do. -/
theorem comparisonsAreNumeric : Obligations.ComparisonsAreNumeric := by
  intro x y hx hy
  constructor
  · simp [f32Lt, f32IsNaN_of_finite, hx, hy, f32Key_lt_iff]
  · simp [f32Eq, f32IsNaN_of_finite, hx, hy, f32Key_eq_iff]

end Sys2Proof.Proofs
end

section
/-! Proofs of the statements about the state: who writes each element (R20 to R26), the invariant of a run (R27), clean
runs (R168), and the STATUS word (R28). -/

namespace Sys2Proof.Proofs

open Sys2Proof Sys2Proof.Machine

/-! ### The statuses a command can answer (R141) -/

/-- A result that goes on carries a response, with one of these statuses. -/
def AnswersOneOf (sts : List Status) (res : Result) : Prop :=
  ∀ t, res = .next t → ∃ r, t.response = some r ∧ r.status ∈ sts

@[simp] theorem answersOneOf_respond (sts : List Status) (st : Status) (d : Word) (s : State) :
    AnswersOneOf sts (respond st d s) ↔ st ∈ sts := by
  simp [AnswersOneOf, respond_eq]

@[simp] theorem answersOneOf_raise (sts : List Status) (st : Status) (s : State) :
    AnswersOneOf sts (raise st s) ↔ st ∈ sts := answersOneOf_respond sts st _ s

@[simp] theorem answersOneOf_modelFault (sts : List Status) (e : Fault) : AnswersOneOf sts (modelFault e) := by
  simp [AnswersOneOf, modelFault]

@[simp] theorem answersOneOf_ite (sts : List Status) (c : Prop) [Decidable c] (res res' : Result) :
    AnswersOneOf sts (if c then res else res') ↔ (c → AnswersOneOf sts res) ∧ (¬ c → AnswersOneOf sts res') := by
  split <;> simp_all

/-- Every command answers one of the statuses the table of R141 gives its opcode. -/
theorem exec_answersOneOf_possibleStatuses (i : Instr) (s : State) :
    AnswersOneOf (possibleStatuses (opcField (encode i)).toNat) (exec i s) := by
  cases i with
  | nop => simp [exec, execNop, encode, possibleStatuses]
  | tblWr a v => simp [exec, execTblWr, encode, possibleStatuses]
  | tblRd a => cases h : tableRead s a <;> simp [exec, execTblRd, h, encode, possibleStatuses]
  | construct len rate => simp [exec, execConstruct, encode, possibleStatuses]
  | setFreq f => simp [exec, execSetFreq, encode, possibleStatuses]
  | getSample => cases h : lerp s s.index <;> simp [exec, execGetSample, h, encode, possibleStatuses]
  | getInfo sel => cases h : infoSelector sel <;> simp [exec, execGetInfo, h, encode, possibleStatuses]
  | release => simp [exec, execRelease, encode, possibleStatuses]
  | peek sel => cases h : peekSelector sel <;> simp [exec, execPeek, h, encode, possibleStatuses]

/-- `ERR_PHASE` stands in the row of GET_SAMPLE only (R141). -/
theorem errPhase_notMem_possibleStatuses (i : Instr) (hi : i ≠ .getSample) :
    .errPhase ∉ possibleStatuses (opcField (encode i)).toNat := by
  cases i <;> simp_all [encode, possibleStatuses]

theorem exec_status_ne_errPhase {i : Instr} {s t : State} {r : Response} (hi : i ≠ .getSample)
    (h : exec i s = .next t) (hr : t.response = some r) : r.status ≠ .errPhase := by
  obtain ⟨r', hr', hmem⟩ := exec_answersOneOf_possibleStatuses i s t h
  obtain rfl : r' = r := Option.some.inj (hr'.symm.trans hr)
  exact fun he => errPhase_notMem_possibleStatuses i hi (he ▸ hmem)

/-! ### What a command can do to the state -/

/-- Everything a command that the model answers can do: give a response only, or write the elements that are its own. -/
inductive Effect (s : State) : Instr → State → Prop
  /-- A response, and no element changes. -/
  | answered (i : Instr) (r : Response) (hr : r.status ≠ .errPhase) : Effect s i { s with response := some r }
  /-- TBL_WR (R80). -/
  | stored (a : Nat) (v : F32) (hmode : s.mode = .idle) (ha : a < s.params.tableDepth.toNat)
      (hv : f32IsFinite v = true) :
      Effect s (.tblWr a v) { s with table := Memory.write s.table a v, response := some ⟨.ok, 0#32⟩ }
  /-- CONSTRUCT (R90). -/
  | constructed (len : BitVec 16) (rate : Word) (hmode : s.mode = .idle) (hlen : validLength s len = true)
      (hrate : rate ≠ 0#32) :
      Effect s (.construct len rate) { s with
        mode := .active, tableLen := len, sampleRate := rate, index := 0x00000000#32, incr := 0x00000000#32,
        response := some ⟨.ok, 0#32⟩ }
  /-- RELEASE (R91). -/
  | released (hmode : s.mode = .active) :
      Effect s .release { s with
        mode := .idle, tableLen := 0#16, sampleRate := 0#32, index := 0x00000000#32, incr := 0x00000000#32,
        response := some ⟨.ok, 0#32⟩ }
  /-- SET_FREQ (R101). -/
  | retuned (f : F32) (hmode : s.mode = .active)
      (hfin : f32IsFinite (increment f s.tableLen s.sampleRate) = true) :
      Effect s (.setFreq f) { s with
        incr := increment f s.tableLen s.sampleRate, response := some ⟨.ok, 0#32⟩ }
  /-- GET_SAMPLE at a negative phase (R120). -/
  | phaseRefused (hmode : s.mode = .active) (hneg : f32Lt s.index 0x00000000#32 = true) :
      Effect s .getSample { s with fault := true, response := some ⟨.errPhase, 0#32⟩ }
  /-- GET_SAMPLE at a phase that is not negative (R120). -/
  | advanced (y : F32) (hmode : s.mode = .active) (hlerp : lerp s s.index = .ok y) :
      Effect s .getSample { s with index := advancedIndex s, response := some ⟨.ok, y⟩ }

/-- The commands' laws together: a command that the model answers has one of the effects. -/
theorem exec_effect {i : Instr} {s t : State} (h : exec i s = .next t) : Effect s i t := by
  have hstatus : ∀ r, t.response = some r → i ≠ .getSample → r.status ≠ .errPhase :=
    fun r hr hi => exec_status_ne_errPhase hi h hr
  cases i with
  | nop =>
    obtain rfl := execNop_next s t h
    exact .answered _ _ (hstatus _ rfl (by simp))
  | tblWr a v =>
    obtain ⟨st, -, rfl⟩ | ⟨hmode, ha, hv, rfl⟩ := execTblWr_next a v s t h
    · exact .answered _ _ (hstatus _ rfl (by simp))
    · exact .stored a v hmode ha hv
  | tblRd a =>
    obtain ⟨r, rfl⟩ := execTblRd_next a s t h
    exact .answered _ _ (hstatus _ rfl (by simp))
  | construct len rate =>
    obtain ⟨st, -, rfl⟩ | ⟨hmode, hlen, hrate, rfl⟩ := execConstruct_next len rate s t h
    · exact .answered _ _ (hstatus _ rfl (by simp))
    · exact .constructed len rate hmode hlen hrate
  | setFreq f =>
    obtain ⟨st, -, rfl⟩ | ⟨hmode, -, hfin, rfl⟩ := execSetFreq_next f s t h
    · exact .answered _ _ (hstatus _ rfl (by simp))
    · exact .retuned f hmode hfin
  | getSample =>
    obtain ⟨-, rfl⟩ | ⟨hmode, hneg, rfl⟩ | ⟨hmode, -, y, hlerp, rfl⟩ := execGetSample_next s t h
    · exact .answered _ _ (by decide)
    · exact .phaseRefused hmode hneg
    · exact .advanced y hmode hlerp
  | getInfo sel =>
    obtain ⟨r, rfl⟩ := execGetInfo_next sel s t h
    exact .answered _ _ (hstatus _ rfl (by simp))
  | release =>
    obtain ⟨st, -, rfl⟩ | ⟨hmode, rfl⟩ := execRelease_next s t h
    · exact .answered _ _ (hstatus _ rfl (by simp))
    · exact .released hmode
  | peek sel =>
    obtain ⟨r, rfl⟩ := execPeek_next sel s t h
    exact .answered _ _ (hstatus _ rfl (by simp))

theorem effect_params {i : Instr} {s t : State} (h : Effect s i t) : t.params = s.params := by cases h <;> rfl

/-- The only command that writes S.FAULT is the pull at a negative phase (R21). -/
theorem effect_fault {i : Instr} {s t : State} (h : Effect s i t) :
    t.fault = s.fault ∨
      i = .getSample ∧ s.mode = .active ∧ f32Lt s.index 0x00000000#32 = true ∧
        t.fault = true ∧ t.response = some ⟨.errPhase, 0#32⟩ := by
  cases h with
  | phaseRefused hmode hneg => exact .inr ⟨rfl, hmode, hneg, rfl, rfl⟩
  | answered | stored | constructed | released | retuned | advanced => exact .inl rfl

/-- The only command that answers ERR_PHASE is the pull at a negative phase (R120). -/
theorem effect_errPhase {i : Instr} {s t : State} {r : Response} (h : Effect s i t) (hr : t.response = some r)
    (he : r.status = .errPhase) : s.mode = .active ∧ f32Lt s.index 0x00000000#32 = true := by
  cases h with
  | phaseRefused hmode hneg => exact ⟨hmode, hneg⟩
  | answered _ r' hr' =>
    cases hr
    exact absurd he hr'
  | stored | constructed | released | retuned | advanced =>
    cases hr
    cases he

/-! ### Who writes each element -/

/-- Settles O15: of the effects, only a construction and a release write the mode. -/
theorem modeWrittenOnlyByConstructAndRelease : Obligations.ModeWrittenOnlyByConstructAndRelease := by
  intro i s t h hne
  cases exec_effect h with
  | constructed len rate hmode => exact ⟨rfl, .inl ⟨⟨len, rate, rfl⟩, hmode, rfl⟩⟩
  | released hmode => exact ⟨rfl, .inr ⟨rfl, hmode, rfl⟩⟩
  | answered | stored | retuned | phaseRefused | advanced => exact absurd rfl hne

/-- Settles O17: of the effects, only a store writes the table, and it leaves every other address alone. -/
theorem entryWrittenOnlyByTblWrInIdle : Obligations.EntryWrittenOnlyByTblWrInIdle := by
  intro i s t a h hne
  cases exec_effect h with
  | stored b v hmode _ hv =>
    obtain rfl : a = b := by
      by_contra hab
      exact hne (Memory.read_write_other s.table b a v hab)
    exact ⟨v, rfl, hmode, hv, Memory.read_write_same s.table a v⟩
  | answered | constructed | released | retuned | phaseRefused | advanced => exact absurd rfl hne

/-- Settles O18: each effect writes the elements of its own command. -/
theorem oscillatorElementsWrittenOnlyByTheirCommands :
    Obligations.OscillatorElementsWrittenOnlyByTheirCommands := by
  intro i s t h
  have heff := exec_effect h
  refine ⟨?_, ?_, ?_, effect_params heff⟩
  · intro hindex
    cases heff with
    | constructed len rate => exact .inl ⟨len, rate, rfl⟩
    | released => exact .inr (.inl rfl)
    | advanced => exact .inr (.inr rfl)
    | answered | stored | retuned | phaseRefused => exact absurd rfl hindex
  · intro hincr
    cases heff with
    | constructed len rate => exact .inl ⟨len, rate, rfl⟩
    | released => exact .inr (.inl rfl)
    | retuned f => exact .inr (.inr ⟨f, rfl⟩)
    | answered | stored | phaseRefused | advanced => exact absurd rfl hincr
  · intro hosc
    cases heff with
    | constructed len rate => exact .inl ⟨len, rate, rfl⟩
    | released => exact .inr rfl
    | answered | stored | retuned | phaseRefused | advanced => exact absurd hosc (by simp)

/-! ### The wrapped phase (R103, R104) -/

theorem f32Lt_zero (x : F32) (hx : f32IsFinite x = true) : f32Lt x 0x00000000#32 = decide (f32Scaled x < 0) :=
  (comparisonsAreNumeric x 0x00000000#32 hx (by decide)).1

theorem f32Eq_zero (x : F32) (hx : f32IsFinite x = true) : f32Eq x 0x00000000#32 = decide (f32Scaled x = 0) :=
  (comparisonsAreNumeric x 0x00000000#32 hx (by decide)).2

/-- The reset value `+0.0` of the phase and the increment (R24, R25). -/
theorem f32_zero :
    f32IsFinite 0x00000000#32 = true ∧ f32Sign 0x00000000#32 = false ∧ f32Magnitude 0x00000000#32 = 0 := by decide

theorem f32Scaled_nonneg (x : F32) (h : f32Sign x = false) : 0 ≤ f32Scaled x := by simp [f32Scaled, h]

theorem lengthF32_finite (len : BitVec 16) : f32IsFinite (lengthF32 len) = true :=
  toF32_finite _ (len_toNat_lt len)

/-- A length converts exactly (R100). -/
theorem lengthF32_magnitude (len : BitVec 16) : f32Magnitude (lengthF32 len) = len.toNat * f32Unit :=
  toF32_magnitude _ (by have := len.isLt; omega)

theorem lengthF32_scaled (len : BitVec 16) : f32Scaled (lengthF32 len) = ((len.toNat * f32Unit : Nat) : Int) := by
  rw [f32Scaled, lengthF32_magnitude]
  simp [lengthF32, toF32_sign]

theorem lengthF32_magnitude_ne_zero (len : BitVec 16) (h : len ≠ 0#16) : f32Magnitude (lengthF32 len) ≠ 0 := by
  rw [lengthF32_magnitude]
  exact (Nat.mul_pos (len_pos_of_ne len h) f32Unit_pos).ne'

/-- The remainder by a length is finite, in (-L, L), and has the sign bit of `x` (R9, R104). -/
theorem wrapF_range (x : F32) (len : BitVec 16) (hx : f32IsFinite x = true) (hlen : len ≠ 0#16) :
    f32IsFinite (wrapF x len) = true ∧ f32Sign (wrapF x len) = f32Sign x ∧
      f32Magnitude (wrapF x len) < len.toNat * f32Unit := by
  have hl := lengthF32_magnitude_ne_zero len hlen
  obtain ⟨hfin, hsign, hmag⟩ := f32Fmod_exact x (lengthF32 len) hx (lengthF32_finite len) hl
  refine ⟨hfin, hsign, ?_⟩
  rw [← lengthF32_magnitude, wrapF, hmag]
  exact Nat.mod_lt _ (Nat.pos_of_ne_zero hl)

/-- A remainder in (-L, L) is brought into [0, L) (R103). -/
theorem renormalise_range (r : F32) (len : BitVec 16) (hlen : len ≠ 0#16) (hr : f32IsFinite r = true)
    (hbound : f32Magnitude r < len.toNat * f32Unit) :
    f32IsFinite (renormalise r (lengthF32 len)) = true ∧ 0 ≤ f32Scaled (renormalise r (lengthF32 len)) ∧
      f32Magnitude (renormalise r (lengthF32 len)) < len.toNat * f32Unit := by
  rw [renormalise, f32Lt_zero r hr]
  split
  next hneg =>
    have hpos : 0 < f32Scaled r + f32Scaled (lengthF32 len) := by
      have := f32Scaled_natAbs r
      rw [lengthF32_scaled]
      omega
    have hsum := f32Add_finite_of_bound r (lengthF32 len) len.toNat hr (lengthF32_finite len) hbound
      (by have := len.isLt; omega)
    have hsign : f32Sign (f32Add r (lengthF32 len)) = false := by
      obtain ⟨neg, hround, hneg, -⟩ := f32Add_round r (lengthF32 len) hr (lengthF32_finite len)
      rw [hround, f32Sign_round, hneg hpos.ne', decide_eq_false (not_lt.mpr hpos.le)]
    obtain ⟨hfin, hsign', hlt⟩ := wrapF_range _ len hsum hlen
    exact ⟨hfin, f32Scaled_nonneg _ (hsign'.trans hsign), hlt⟩
  next hneg => exact ⟨hr, by simpa using hneg, hbound⟩

/-- Making `-0.0` into `+0.0` clears the sign bit of a value that is not negative (R103). -/
theorem positiveZero_range (r : F32) (b : Nat) (hr : f32IsFinite r = true) (h0 : 0 ≤ f32Scaled r)
    (hbound : f32Magnitude r < b) :
    f32IsFinite (positiveZero r) = true ∧ f32Sign (positiveZero r) = false ∧ f32Magnitude (positiveZero r) < b := by
  rw [positiveZero, f32Eq_zero r hr]
  split
  next => exact ⟨by decide, by decide, (Nat.zero_le _).trans_lt hbound⟩
  next hne =>
    rw [decide_eq_true_eq] at hne
    exact ⟨hr, by rw [f32Sign_eq_scaled_neg r hne, decide_eq_false (not_lt.mpr h0)], hbound⟩

/-- The Euclidean wrap of a finite phase is finite, has its sign bit clear, and is below L (R103). -/
theorem wrapE_range (x : F32) (len : BitVec 16) (hx : f32IsFinite x = true) (hlen : len ≠ 0#16) :
    f32IsFinite (wrapE x len) = true ∧ f32Sign (wrapE x len) = false ∧
      f32Magnitude (wrapE x len) < len.toNat * f32Unit := by
  obtain ⟨hfin, -, hlt⟩ := wrapF_range x len hx hlen
  obtain ⟨hfin', h0, hlt'⟩ := renormalise_range _ len hlen hfin hlt
  exact positiveZero_range _ _ hfin' h0 hlt'

/-- Either wrap leaves a finite phase in (-L, L), and the Euclidean one clears its sign bit (R102). -/
theorem wrapPhase_range (wm : WrapMode) (x : F32) (len : BitVec 16) (hx : f32IsFinite x = true) (hlen : len ≠ 0#16) :
    f32IsFinite (wrapPhase wm x len) = true ∧ f32Magnitude (wrapPhase wm x len) < len.toNat * f32Unit ∧
      (wm = .euclidean → f32Sign (wrapPhase wm x len) = false) := by
  cases wm with
  | euclidean =>
    obtain ⟨hfin, hsign, hlt⟩ := wrapE_range x len hx hlen
    exact ⟨hfin, hlt, fun _ => hsign⟩
  | fmod =>
    obtain ⟨hfin, -, hlt⟩ := wrapF_range x len hx hlen
    exact ⟨hfin, hlt, fun h => by cases h⟩

/-! ### The invariant (R27) -/

/-- The invariant says nothing of the port. -/
theorem inv_port {s : State} (h : Inv s) (l : List HostInput) (r : Option Response) :
    Inv { s with inputs := l, response := r } := by
  obtain ⟨hparams, ⟨hwf, hrange, hfin⟩, hidle, hactive, hfault⟩ := h
  exact
    { params := hparams
      table := ⟨hwf, hrange, hfin⟩
      idle := fun hmode => let ⟨h1, h2, h3, h4⟩ := hidle hmode; ⟨h1, h2, h3, h4⟩
      active := fun hmode => let ⟨h1, h2, h3, h4, h5, h6, h7⟩ := hactive hmode; ⟨h1, h2, h3, h4, h5, h6, h7⟩
      faultFmod := hfault }

/-- Hardware reset leaves a state that meets the invariant (R160). -/
theorem inv_hardwareReset (s : State) (h : s.params.wf) : Inv s.hardwareReset :=
  { params := h
    table := ⟨List.Pairwise.nil, by simp, by simp⟩
    idle := fun _ => ⟨rfl, rfl, rfl, rfl⟩
    active := fun hmode => by cases hmode
    faultFmod := fun hfault => by cases hfault }

/-- Settles O19: the reset state is what hardware reset leaves. -/
theorem invariantHoldsAtReset : Obligations.InvariantHoldsAtReset :=
  inv_hardwareReset State.reset (by decide)

/-- A store of a finite value in the table space keeps the table's conditions (R80). -/
theorem tableInv_write {s t : State} {a : Nat} {v : F32} (h : TableInv s) (ha : a < s.params.tableDepth.toNat)
    (hv : f32IsFinite v = true) (ht : t.table = Memory.write s.table a v) (hp : t.params = s.params) : TableInv t := by
  refine ⟨ht ▸ Memory.wf_write s.table a v h.canonical, fun e he => ?_, fun e he => ?_⟩
  · rw [hp]
    obtain rfl | he := Memory.mem_write s.table a v e (ht ▸ he)
    · exact ha
    · exact h.inRange e he
  · obtain rfl | he := Memory.mem_write s.table a v e (ht ▸ he)
    · exact hv
    · exact h.finite e he

/-- The table's conditions speak of the table and the table depth only. -/
theorem tableInv_congr {s t : State} (h : TableInv s) (ht : t.table = s.table) (hp : t.params = s.params) :
    TableInv t :=
  ⟨ht ▸ h.canonical, by rw [ht, hp]; exact h.inRange, by rw [ht]; exact h.finite⟩

/-- The advanced phase keeps R27's items 3 and 4: the sum is finite, and the wrap brings it into range. -/
theorem advancedIndex_range {s : State} (h : ActiveInv s) :
    f32IsFinite (advancedIndex s) = true ∧ f32Magnitude (advancedIndex s) < s.tableLen.toNat * f32Unit ∧
      (s.params.wrapMode = .euclidean → f32Sign (advancedIndex s) = false) := by
  have hsum : f32IsFinite (f32Add s.index s.incr) = true :=
    f32Add_finite_of_bound s.index s.incr _ h.indexFinite h.incrFinite h.indexBound
      (by have := s.tableLen.isLt; omega)
  exact wrapPhase_range s.params.wrapMode _ s.tableLen hsum h.lenPos

/-- Where the invariant holds, a negative phase is one under FMOD (R27 item 4). -/
theorem fmod_of_negative_phase {s : State} (h : Inv s) (hmode : s.mode = .active)
    (hneg : f32Lt s.index 0x00000000#32 = true) : s.params.wrapMode = .fmod := by
  have hactive := h.active hmode
  cases hwrap : s.params.wrapMode with
  | fmod => rfl
  | euclidean =>
    have h0 := f32Scaled_nonneg s.index (hactive.euclidean hwrap)
    rw [f32Lt_zero s.index hactive.indexFinite, decide_eq_true_eq] at hneg
    omega

/-- A length CONSTRUCT accepts is in ACTIVE's bounds (R90). -/
theorem validLength_iff (s : State) (len : BitVec 16) :
    validLength s len = true ↔ len ≠ 0#16 ∧ len.toNat ≤ s.params.tableDepth.toNat := by
  simp [validLength]

/-- Every effect keeps the invariant. -/
theorem effect_keeps_inv {i : Instr} {s t : State} (h : Inv s) (heff : Effect s i t) : Inv t := by
  cases heff with
  | answered _ r _ => exact inv_port h s.inputs (some r)
  | stored a v hmode ha hv =>
    exact
      { params := h.params
        table := tableInv_write h.table ha hv rfl rfl
        idle := fun hm => let ⟨hlen, hrate, hindex, hincr⟩ := h.idle hm; ⟨hlen, hrate, hindex, hincr⟩
        active := fun hm => absurd (hmode.symm.trans hm) (by decide)
        faultFmod := h.faultFmod }
  | constructed len rate hmode hlen hrate =>
    obtain ⟨hpos, hle⟩ := (validLength_iff s len).mp hlen
    obtain ⟨hfin, hsign, hmag⟩ := f32_zero
    have hbound : f32Magnitude 0x00000000#32 < len.toNat * f32Unit :=
      hmag ▸ Nat.mul_pos (len_pos_of_ne len hpos) f32Unit_pos
    exact
      { params := h.params
        table := tableInv_congr h.table rfl rfl
        idle := fun hm => by cases hm
        active := fun _ => ⟨hpos, hle, hrate, hfin, hfin, hbound, fun _ => hsign⟩
        faultFmod := h.faultFmod }
  | released hmode =>
    exact
      { params := h.params
        table := tableInv_congr h.table rfl rfl
        idle := fun _ => ⟨rfl, rfl, rfl, rfl⟩
        active := fun hm => by cases hm
        faultFmod := h.faultFmod }
  | retuned f hmode hfin =>
    obtain ⟨hlen, hle, hrate, -, hindex, hbound, heuclid⟩ := h.active hmode
    exact
      { params := h.params
        table := tableInv_congr h.table rfl rfl
        idle := fun hm => absurd (hmode.symm.trans hm) (by decide)
        active := fun _ => ⟨hlen, hle, hrate, hfin, hindex, hbound, heuclid⟩
        faultFmod := h.faultFmod }
  | phaseRefused hmode hneg =>
    obtain ⟨hlen, hle, hrate, hincr, hindex, hbound, heuclid⟩ := h.active hmode
    have hfmod := fmod_of_negative_phase h hmode hneg
    exact
      { params := h.params
        table := tableInv_congr h.table rfl rfl
        idle := fun hm => absurd (hmode.symm.trans hm) (by decide)
        active := fun _ => ⟨hlen, hle, hrate, hincr, hindex, hbound, heuclid⟩
        faultFmod := fun _ => hfmod }
  | advanced y hmode _ =>
    obtain ⟨hlen, hle, hrate, hincr, -, -, -⟩ := h.active hmode
    obtain ⟨hindex, hbound, heuclid⟩ := advancedIndex_range (h.active hmode)
    exact
      { params := h.params
        table := tableInv_congr h.table rfl rfl
        idle := fun hm => absurd (hmode.symm.trans hm) (by decide)
        active := fun _ => ⟨hlen, hle, hrate, hincr, hindex, hbound, heuclid⟩
        faultFmod := h.faultFmod }

/-- Settles O20: each effect keeps the invariant, and a step is an effect, a reset, or an answer at the port alone. -/
theorem invariantKeptByEveryStep : Obligations.InvariantKeptByEveryStep := by
  intro s t hs h
  obtain ⟨-, rfl⟩ | ⟨w, rest, i, -, -, hexec⟩ | ⟨w, rest, e, -, -, rfl⟩ | ⟨rest, -, rfl⟩ := step_next s t h
  · exact inv_port hs s.inputs none
  · exact effect_keeps_inv (inv_port hs rest s.response) (exec_effect hexec)
  · exact inv_port hs rest (some ⟨.errIllegal, 0#32⟩)
  · exact inv_hardwareReset _ hs.params

/-! ### S.FAULT and ERR_PHASE along a run (R21, R168) -/

/-- Everything a step can do to S.FAULT: leave it, clear it by hardware reset, or set it by a pull at a negative phase. -/
theorem step_fault {s t : State} (h : step s = .next t) :
    t.fault = s.fault ∨
      (t.fault = false ∧ ∃ rest, s.inputs = .reset :: rest ∨ ∃ w, s.inputs = .resetDuring w :: rest) ∨
      t.fault = true ∧ s.mode = .active ∧ f32Lt s.index 0x00000000#32 = true ∧
        ∃ w rest, s.inputs = .command w :: rest ∧ decode w = .ok .getSample ∧
          t.response = some ⟨.errPhase, 0#32⟩ := by
  obtain ⟨-, rfl⟩ | ⟨w, rest, i, hin, hdec, hexec⟩ | ⟨w, rest, e, -, -, rfl⟩ | ⟨rest, hin, rfl⟩ := step_next s t h
  · exact .inl rfl
  · obtain heq | ⟨rfl, hmode, hneg, hset, hresp⟩ := effect_fault (exec_effect hexec)
    · exact .inl heq
    · exact .inr (.inr ⟨hset, hmode, hneg, w, rest, hin, hdec, hresp⟩)
  · exact .inl rfl
  · exact .inr (.inl ⟨rfl, rest, hin⟩)

/-- Settles O16: of a step's cases, only hardware reset clears S.FAULT, and only the pull at a negative phase sets it. -/
theorem faultStickyAndSetOnlyByErrPhase : Obligations.FaultStickyAndSetOnlyByErrPhase := by
  refine ⟨rfl, fun s t hs h => ?_⟩
  obtain hsame | ⟨hclear, hreset⟩ | ⟨hset, hmode, hneg, w, rest, hin, hdec, hresp⟩ := step_fault h
  · simp +contextual [hsame]
  · exact ⟨fun _ _ => hreset, by simp [hclear]⟩
  · exact ⟨by simp [hset], fun _ _ => ⟨w, rest, hin, hdec, hresp, fmod_of_negative_phase hs hmode hneg⟩⟩

/-- The parameters are hardwired (R28). -/
theorem step_params {s t : State} (h : step s = .next t) : t.params = s.params := by
  obtain ⟨-, rfl⟩ | ⟨w, rest, i, -, -, hexec⟩ | ⟨w, rest, e, -, -, rfl⟩ | ⟨rest, -, rfl⟩ := step_next s t h
  · rfl
  · have hparams := effect_params (exec_effect hexec)
    exact hparams
  · rfl
  · rfl

/-- A step that answers ERR_PHASE is a pull at a negative phase (R120). -/
theorem step_errPhase {s t : State} {r : Response} (h : step s = .next t) (hr : t.response = some r)
    (he : r.status = .errPhase) : s.mode = .active ∧ f32Lt s.index 0x00000000#32 = true := by
  obtain ⟨-, rfl⟩ | ⟨w, rest, i, -, -, hexec⟩ | ⟨w, rest, e, -, -, rfl⟩ | ⟨rest, -, rfl⟩ := step_next s t h
  · cases hr
  · have hphase := effect_errPhase (exec_effect hexec) hr he
    exact hphase
  · cases hr
    cases he
  · cases hr

/-- The runs of `k + 1` steps that do not stop: a step, then a run of `k` steps. -/
theorem observe_succ {k : Nat} {s u : State} {seen : List Response} (h : observe (k + 1) s = .next (u, seen)) :
    ∃ t later, step s = .next t ∧ observe k t = .next (u, later) ∧ seen = t.response.toList ++ later := by
  unfold observe at h
  split at h
  · cases h
  · cases h
  next t hstep =>
    split at h
    · cases h
    · cases h
    next later hrun =>
      cases h
      exact ⟨t, later, hstep, hrun, rfl⟩

/-- What every step keeps, every run keeps; and what every step's response meets, every response of a run meets. -/
theorem observe_keeps {P : State → Prop} {Q : Response → Prop}
    (hstep : ∀ s t, P s → step s = .next t → P t ∧ ∀ r, t.response = some r → Q r)
    (k : Nat) (s u : State) (seen : List Response) (hs : P s) (h : observe k s = .next (u, seen)) :
    P u ∧ ∀ r ∈ seen, Q r := by
  induction k generalizing s seen with
  | zero =>
    cases h
    exact ⟨hs, by simp⟩
  | succ k ih =>
    obtain ⟨t, later, ht, hrun, rfl⟩ := observe_succ h
    obtain ⟨hPt, hQt⟩ := hstep s t hs ht
    obtain ⟨hPu, hQ⟩ := ih t later hPt hrun
    refine ⟨hPu, fun r hr => ?_⟩
    obtain hr | hr := List.mem_append.mp hr
    · exact hQt r (by simpa using hr)
    · exact hQ r hr

/-- Under EUCLIDEAN a state that meets the invariant has S.FAULT clear (R21). -/
theorem fault_clear_of_euclidean {s : State} (h : Inv s) (hwrap : s.params.wrapMode = .euclidean) :
    s.fault = false := by
  by_contra hf
  have hfmod := h.faultFmod (by simpa using hf)
  exact absurd (hwrap.symm.trans hfmod) (by decide)

/-- Under EUCLIDEAN a step keeps the invariant and the wrap mode, which together exclude a negative phase, so it does not
answer ERR_PHASE (R27 item 4). -/
theorem euclidean_step {s t : State} (hs : Inv s) (hwrap : s.params.wrapMode = .euclidean) (h : step s = .next t) :
    (Inv t ∧ t.params.wrapMode = .euclidean) ∧ ∀ r, t.response = some r → r.status ≠ .errPhase := by
  refine ⟨⟨invariantKeptByEveryStep s t hs h, step_params h ▸ hwrap⟩, fun r hr he => ?_⟩
  obtain ⟨hmode, hneg⟩ := step_errPhase h hr he
  exact absurd (hwrap.symm.trans (fmod_of_negative_phase hs hmode hneg)) (by decide)

/-- Settles O52: what one step does under EUCLIDEAN, over a run of any length. -/
theorem euclideanRunsAreClean : Obligations.EuclideanRunsAreClean := by
  intro k s u seen hs hwrap h
  obtain ⟨⟨hu, hwrap'⟩, hclean⟩ :=
    observe_keeps (P := fun s => Inv s ∧ s.params.wrapMode = .euclidean) (Q := fun r => r.status ≠ .errPhase)
      (fun _ _ ⟨hs, hwrap⟩ h => euclidean_step hs hwrap h) k s u seen ⟨hs, hwrap⟩ h
  exact ⟨u, seen, h, fault_clear_of_euclidean hu hwrap', hclean⟩

/-! ### A pull of an unwritten entry (R31, R110) -/

/-- At a phase in [k, k + 1) below L the interpolator's index is k. -/
theorem lerpIndex_eq (x : F32) (len : BitVec 16) (k : Nat) (hx : f32IsFinite x = true)
    (hlo : ((k * f32Unit : Nat) : Int) ≤ f32Scaled x) (hhi : f32Scaled x < (((k + 1) * f32Unit : Nat) : Int))
    (hk : k < len.toNat) : lerpIndex x len = some k := by
  have hfloor : f32Floor x = k := by
    have hu : (0 : Int) < f32Unit := by exact_mod_cast f32Unit_pos
    push_cast at hlo hhi
    have hle : (k : Int) ≤ f32Floor x := (Int.le_ediv_iff_mul_le hu).mpr hlo
    have hlt : f32Floor x < k + 1 := (Int.ediv_lt_iff_lt_mul hu).mpr hhi
    omega
  have h0 : 0 ≤ f32Scaled x := (Int.natCast_nonneg _).trans hlo
  simp [lerpIndex, hx, h0, hfloor, hk]

/-- An entry the interpolator needs and that was not written is the model fault, whichever of the two it is. -/
theorem lerp_unwritten (s : State) (x : F32) (k : Nat) (hk : lerpIndex x s.tableLen = some k)
    (h : Memory.written s.table k = false ∨ Memory.written s.table ((k + 1) % s.tableLen.toNat) = false) :
    lerp s x = .error .unwrittenTableRead := by
  simp only [Memory.written, Option.isSome_eq_false_iff, Option.isNone_iff_eq_none] at h
  obtain h0 | h1 := h
  · simp [lerp, hk, tableRead, h0]
  · cases h0 : Memory.read s.table k <;> simp [lerp, hk, tableRead, h0, h1]

/-- A pull in ACTIVE at a phase that is not negative stops where the interpolator does. -/
theorem execGetSample_lerp_error (s : State) (e : Fault) (hmode : s.mode = .active)
    (hneg : f32Lt s.index 0x00000000#32 = false) (h : lerp s s.index = .error e) : exec .getSample s = .fault e := by
  simp [exec, execGetSample, hmode, hneg, h, modelFault]

/-- Settles O45: the phase's interval gives the index, and one of its two entries is missing. -/
theorem pullOfUnwrittenEntryFaults : Obligations.PullOfUnwrittenEntryFaults := by
  intro s k hmode hfin hlo hhi hk hunwritten
  have h0 : 0 ≤ f32Scaled s.index := (Int.natCast_nonneg _).trans hlo
  have hneg : f32Lt s.index 0x00000000#32 = false := by
    rw [f32Lt_zero s.index hfin, decide_eq_false (not_lt.mpr h0)]
  have hindex := lerpIndex_eq s.index s.tableLen k hfin hlo hhi hk
  exact execGetSample_lerp_error s _ hmode hneg (lerp_unwritten s s.index k hindex hunwritten)

/-! ### The STATUS word (R28) -/

/-- The STATUS word's bits, from the bottom: ACTIVE, FAULT, WRAPF, zeros up to bit 15, DEPTH. -/
theorem statusWord_getLsbD (s : State) (b : Nat) :
    (statusWord s).getLsbD b =
      if b = 0 then s.mode.bit
      else if b = 1 then s.fault
      else if b = 2 then wrapfBit s.params.wrapMode
      else if b < 16 then false
      else s.params.tableDepth.getLsbD (b - 16) := by
  change (s.params.tableDepth ++ 0#13 ++ BitVec.ofBool (wrapfBit s.params.wrapMode) ++ BitVec.ofBool s.fault
    ++ BitVec.ofBool s.mode.bit).getLsbD b = _
  simp only [BitVec.getLsbD_append, BitVec.getLsbD_ofBool, BitVec.getLsbD_zero]
  match b with
  | 0 => rfl
  | 1 => rfl
  | 2 => rfl
  | b + 3 =>
    have hdepth : b + 3 < 16 ↔ b < 13 := by omega
    simp [hdepth]

theorem mode_bit (m : Mode) : m.bit = decide (m = .active) := by cases m <;> rfl

theorem wrapfBit_eq (wm : WrapMode) : wrapfBit wm = decide (wm = .fmod) := by cases wm <;> rfl

/-- Settles O51: every field of the layout is read off the word's bits. -/
theorem statusWordLayout : Obligations.StatusWordLayout := by
  refine ⟨fun s => ⟨rfl, ?_, ?_, ?_, fun b hlo hhi => ?_, ?_⟩, by decide, by decide⟩
  · rw [statusWord_getLsbD, mode_bit]; rfl
  · rw [statusWord_getLsbD]; rfl
  · rw [statusWord_getLsbD, wrapfBit_eq]; rfl
  · rw [statusWord_getLsbD, if_neg (by omega), if_neg (by omega), if_neg (by omega), if_pos (by omega)]
  · ext b hb
    rw [BitVec.getElem_extractLsb', statusWord_getLsbD, if_neg (by omega), if_neg (by omega), if_neg (by omega),
      if_neg (by omega), Nat.add_sub_cancel_left, BitVec.getLsbD_eq_getElem hb]

end Sys2Proof.Proofs
end

section
/-! Proofs of the statements about the table's use: a step runs the command its word decodes to (R46, R63), and the
interpolator stays in its domain and reads entries below the length only (R44, R51, R112). -/

namespace Sys2Proof.Proofs

open Sys2Proof Sys2Proof.Machine

/-! ### The command at the port (R60, R63) -/

/-- A word put together from its fields is decoded by its fields. -/
theorem decode_assembleWord (opc : BitVec 8) (aux : BitVec 16) (data : BitVec 32) :
    decode (assembleWord opc aux data) = decodeFields opc.toNat aux data := by
  simp [decode]

/-- An operand that fits `AUX` is not cut (R62). -/
theorem toNat_ofNat_of_fitsAux {n : Nat} (h : fitsAux n = true) : (BitVec.ofNat 16 n).toNat = n :=
  Nat.mod_eq_of_lt (of_decide_eq_true h)

/-- Every well-formed command is read back from its own word: the must-be-zero fields are zero, and the others are the
operands. -/
theorem decode_encode (i : Instr) (h : i.WellFormed) : decode (encode i) = .ok i := by
  cases i with
  | nop | construct | setFreq | getSample | release => exact decode_assembleWord _ _ _
  | tblWr n _ | tblRd n | getInfo n | peek n =>
    have hn : (BitVec.ofNat 16 n).toNat = n := toNat_ofNat_of_fitsAux h
    rw [encode, decode_assembleWord]
    simp [decodeFields, needZeroData, hn]

/-- The opcode table's 64-bit numbering loses no bit of a word. -/
@[simp] theorem tableWord_toNat (w : CommandWord) : tableWord 64 w.toNat = w := by
  rw [tableWord, Nat.mod_eq_of_lt w.isLt, BitVec.ofNat_toNat, BitVec.setWidth_eq]

theorem runCommand_of_decode {w : CommandWord} {i : Instr} (h : decode w = .ok i) (s : State) :
    runCommand w s = exec i s := by
  simp [runCommand, h]

/-- Settles O3: a word at the port is run as the command it decodes to, and a command's own word decodes to it. -/
theorem stepRunsDecodedCommand : Obligations.StepRunsDecodedCommand := by
  constructor
  · intro s w rest i hin hdec
    rw [step_command s w rest hin, runCommand_of_decode hdec]
  · intro s i hwf
    have hin : (s.withFetchWord 64 (encode i).toNat).inputs = .command (encode i) :: s.inputs := by
      simp [State.withFetchWord, State.issue]
    rw [step_command _ _ _ hin, runCommand_of_decode (decode_encode i hwf)]
    rfl

/-! ### The branches of GET_SAMPLE (R120) -/

theorem exec_getSample_of_not_active {s : State} (hmode : s.mode ≠ .active) :
    exec .getSample s = .next { s with response := some ⟨.errState, 0#32⟩ } := by
  simp [exec, execGetSample, hmode, raise_eq]

theorem exec_getSample_of_negative {s : State} (hmode : s.mode = .active)
    (hneg : f32Lt s.index 0x00000000#32 = true) :
    exec .getSample s = .next { s with fault := true, response := some ⟨.errPhase, 0#32⟩ } := by
  simp [exec, execGetSample, hmode, hneg, raise_eq, State.setFault]

theorem exec_getSample_of_lerp_ok {s : State} {y : F32} (hmode : s.mode = .active)
    (hneg : f32Lt s.index 0x00000000#32 = false) (hlerp : lerp s s.index = .ok y) :
    exec .getSample s = .next { s with index := advancedIndex s, response := some ⟨.ok, y⟩ } := by
  simp [exec, execGetSample, hmode, hneg, hlerp, respond_eq, State.setIndex]

/-! ### What can stop a step (R31, R110) -/

@[simp] theorem respond_ne_fault (st : Status) (d : Word) (s : State) (e : Fault) : respond st d s ≠ .fault e := by
  simp [respond_eq]

@[simp] theorem raise_ne_fault (st : Status) (s : State) (e : Fault) : raise st s ≠ .fault e :=
  respond_ne_fault st _ s e

/-- Everything that can stop a command: a table read, or the interpolator of a pull. -/
theorem exec_fault {i : Instr} {s : State} {e : Fault} (h : exec i s = .fault e) :
    (∃ a, i = .tblRd a ∧ tableRead s a = .error e) ∨
      i = .getSample ∧ s.mode = .active ∧ f32Lt s.index 0x00000000#32 = false ∧ lerp s s.index = .error e := by
  cases i with
  | nop => simp [exec, execNop] at h
  | tblWr a v => simp [exec, execTblWr, ite_eq_iff] at h
  | construct len rate => simp [exec, execConstruct, ite_eq_iff] at h
  | setFreq f => simp [exec, execSetFreq, ite_eq_iff] at h
  | release => simp [exec, execRelease, ite_eq_iff] at h
  | getInfo sel => cases hsel : infoSelector sel <;> simp [exec, execGetInfo, hsel, ite_eq_iff] at h
  | peek sel => cases hsel : peekSelector sel <;> simp [exec, execPeek, hsel] at h
  | tblRd a =>
    cases hread : tableRead s a with
    | ok v => simp [exec, execTblRd, hread, ite_eq_iff] at h
    | error e' =>
      obtain ⟨-, rfl⟩ : _ ∧ e' = e := by simpa [exec, execTblRd, hread, ite_eq_iff, modelFault] using h
      exact .inl ⟨a, rfl, hread⟩
  | getSample =>
    cases hlerp : lerp s s.index with
    | ok y => simp [exec, execGetSample, hlerp, ite_eq_iff] at h
    | error e' =>
      obtain ⟨hmode, hneg, rfl⟩ : s.mode = .active ∧ f32Lt s.index 0x00000000#32 = false ∧ e' = e := by
        simpa [exec, execGetSample, hlerp, ite_eq_iff, modelFault] using h
      exact .inr ⟨rfl, hmode, hneg, rfl⟩

/-- A step stops only where the command at the port does. -/
theorem step_stop {s : State} {e : Fault} (h : step s = .fault e) :
    ∃ rest i, exec i { s with inputs := rest } = .fault e := by
  unfold step acceptInput at h
  split at h
  · cases h
  next w rest _ =>
    unfold runCommand at h
    split at h
    next i _ => exact ⟨rest, i, h⟩
    · exact absurd h (raise_ne_fault _ _ _)
  · cases h
  · cases h

/-! ### The interpolator's domain (R51, R112) -/

/-- Everything lerp can stop with: a phase that has no index, or an entry that was not written. -/
theorem lerp_error {s : State} {x : F32} {e : Fault} (h : lerp s x = .error e) :
    lerpIndex x s.tableLen = none ∧ e = .phaseOutOfRange ∨
      ∃ k, lerpIndex x s.tableLen = some k ∧ e = .unwrittenTableRead ∧
        (Memory.read s.table k = none ∨ Memory.read s.table ((k + 1) % s.tableLen.toNat) = none) := by
  cases hk : lerpIndex x s.tableLen with
  | none => exact .inl ⟨rfl, by simpa [lerp, hk, eq_comm] using h⟩
  | some k =>
    refine .inr ⟨k, rfl, ?_⟩
    cases h0 : Memory.read s.table k with
    | none => exact ⟨by simpa [lerp, hk, tableRead, h0, eq_comm] using h, .inl rfl⟩
    | some t0 =>
      cases h1 : Memory.read s.table ((k + 1) % s.tableLen.toNat) with
      | none => exact ⟨by simpa [lerp, hk, tableRead, h0, h1, eq_comm] using h, .inr rfl⟩
      | some t1 => simp [lerp_eq s x t0 t1 k hk h0 h1] at h

/-- Every finite phase in [0, L) has an index. -/
theorem lerpIndex_isSome {x : F32} {len : BitVec 16} (hx : f32IsFinite x = true) (h0 : 0 ≤ f32Scaled x)
    (hlt : f32Magnitude x < len.toNat * f32Unit) : ∃ k, lerpIndex x len = some k := by
  have hscaled : f32Scaled x < (len.toNat : Int) * f32Unit := by
    rw [← f32Scaled_natAbs] at hlt
    zify at hlt
    rwa [abs_of_nonneg h0] at hlt
  have hfloor : f32Floor x < len.toNat := Int.ediv_lt_of_lt_mul (by exact_mod_cast f32Unit_pos) hscaled
  exact ⟨(f32Floor x).toNat, by simp [lerpIndex, hx, h0, hfloor]⟩

/-- Settles O21: only a pull can stop so, at a phase that is not negative, and there R27's bound gives an index. -/
theorem lerpNeverLeavesItsDomain : Obligations.LerpNeverLeavesItsDomain := by
  intro s hs h
  obtain ⟨rest, i, hexec⟩ := step_stop h
  obtain ⟨a, -, hread⟩ | ⟨-, hmode, hneg, hlerp⟩ := exec_fault hexec
  · cases ((tableRead_error _ _ _).mp hread).2
  · have hactive := hs.active hmode
    have h0 : 0 ≤ f32Scaled s.index := by
      simpa [f32Lt_zero s.index hactive.indexFinite] using hneg
    obtain ⟨k, hk⟩ := lerpIndex_isSome hactive.indexFinite h0 hactive.indexBound
    obtain ⟨hnone, -⟩ | ⟨-, -, hfault, -⟩ := lerp_error hlerp
    · cases hk.symm.trans hnone
    · cases hfault

/-! ### The entries a pull reads (R44, R112) -/

/-- The interpolator reads entries below the length only: its index is below L, and the next index is taken mod L. -/
theorem lerp_congr_table {s : State} {m : Memory} (hlen : 1 ≤ s.tableLen.toNat)
    (hm : ∀ a, a < s.tableLen.toNat → Memory.read m a = Memory.read s.table a) (x : F32) :
    lerp { s with table := m } x = lerp s x := by
  cases hk : lerpIndex x s.tableLen with
  | none => simp [lerp, hk]
  | some k =>
    obtain ⟨-, -, -, hlt⟩ := lerpIndex_some x s.tableLen k hk
    have h0 := hm k hlt
    have h1 := hm ((k + 1) % s.tableLen.toNat) (Nat.mod_lt _ hlen)
    simp [lerp, hk, tableRead, h0, h1]

/-- Settles O42: each branch of the pull is taken alike over either table, and leaves the table it finds. -/
theorem sampleIgnoresEntriesPastTheLength : Obligations.SampleIgnoresEntriesPastTheLength := by
  intro s t m hlen hm h
  obtain ⟨hmode, rfl⟩ | ⟨hmode, hneg, rfl⟩ | ⟨hmode, hneg, y, hlerp, rfl⟩ := execGetSample_next s t h
  · exact exec_getSample_of_not_active (s := { s with table := m }) hmode
  · exact exec_getSample_of_negative (s := { s with table := m }) hmode hneg
  · have hlerp' := (lerp_congr_table hlen hm s.index).trans hlerp
    exact exec_getSample_of_lerp_ok (s := { s with table := m }) hmode hneg hlerp'

end Sys2Proof.Proofs
end

section
/-! Proofs of the statements about command words: the decoder and the encoder are inverse to each other (R60, R62 to
R66), every command gives one response (R61), and what the assembler makes is a command's word (R68, R70, R84). -/

namespace Sys2Proof.Proofs

open Sys2Proof Sys2Proof.Machine

/-! ### The fields of a word (R60) -/

/-- A word whose reserved field is zero is put together from its other fields. -/
theorem assembleWord_fields {w : CommandWord} (hrsv : rsvField w = 0#8) :
    assembleWord (opcField w) (auxField w) (dataField w) = w := by
  rw [assembleWord, ← hrsv, opcField, rsvField, auxField, dataField,
    BitVec.extractLsb'_append_extractLsb'_eq_extractLsb' (show 56 = 48 + 8 from rfl),
    BitVec.extractLsb'_append_extractLsb'_eq_extractLsb' (show 48 = 32 + 16 from rfl),
    BitVec.extractLsb'_append_extractLsb'_eq_extractLsb' (show 32 = 0 + 32 from rfl)]
  exact BitVec.extractLsb'_eq_self

/-! ### What decodes (R63, R66) -/

@[simp] theorem needZeroAux_ok (aux : BitVec 16) (k : Except Illegal Instr) (i : Instr) :
    needZeroAux aux k = .ok i ↔ aux = 0#16 ∧ k = .ok i := by
  unfold needZeroAux
  split <;> simp_all

@[simp] theorem needZeroData_ok (data : BitVec 32) (k : Except Illegal Instr) (i : Instr) :
    needZeroData data k = .ok i ↔ data = 0#32 ∧ k = .ok i := by
  unfold needZeroData
  split <;> simp_all

/-- The unsigned number in a 16-bit field fits `AUX` (R62). -/
@[simp] theorem fitsAux_toNat (aux : BitVec 16) : fitsAux aux.toNat = true := decide_eq_true aux.isLt

/-- Fields that decode are the fields of the command's own word. -/
theorem decodeFields_ok {opc : Nat} {aux : BitVec 16} {data : BitVec 32} {i : Instr}
    (h : decodeFields opc aux data = .ok i) :
    i.WellFormed ∧ encode i = assembleWord (BitVec.ofNat 8 opc) aux data := by
  unfold decodeFields at h
  split at h <;> simp only [needZeroAux_ok, needZeroData_ok, Except.ok.injEq, reduceCtorEq] at h
  case h_1 | h_6 | h_8 =>
    obtain ⟨rfl, rfl, rfl⟩ := h
    exact ⟨rfl, rfl⟩
  case h_2 | h_4 =>
    obtain rfl := h
    simp [Instr.WellFormed, Instr.wellFormed, encode]
  case h_3 | h_5 | h_7 | h_9 =>
    obtain ⟨rfl, rfl⟩ := h
    simp [Instr.WellFormed, Instr.wellFormed, encode]

/-- A word that decodes has a zero reserved field, and its other fields decode. -/
theorem decode_ok {w : CommandWord} {i : Instr} (h : decode w = .ok i) :
    rsvField w = 0#8 ∧ decodeFields (opcField w).toNat (auxField w) (dataField w) = .ok i := by
  unfold decode at h
  split at h
  next hrsv => exact ⟨hrsv, h⟩
  · cases h

/-- A word that decodes is the word of the command it decodes to. -/
theorem encode_of_decode {w : CommandWord} {i : Instr} (h : decode w = .ok i) : i.WellFormed ∧ encode i = w := by
  obtain ⟨hrsv, hfields⟩ := decode_ok h
  obtain ⟨hwf, hword⟩ := decodeFields_ok hfields
  rw [BitVec.ofNat_toNat, BitVec.setWidth_eq, assembleWord_fields hrsv] at hword
  exact ⟨hwf, hword⟩

/-- Settles O8: the fields of a command's word are its operands, and each operand fits its field. -/
theorem decodeOfEncodeIsIdentity : Obligations.DecodeOfEncodeIsIdentity := decode_encode

/-- Settles O9: every field of a word that decodes is an operand of the command or a constant of its row. -/
theorem encodeOfDecodeIsIdentity : Obligations.EncodeOfDecodeIsIdentity := fun _ _ => encode_of_decode

/-- Settles O10: each example is a fixed word. -/
theorem specExampleWordsDecode : Obligations.SpecExampleWordsDecode := by
  unfold Obligations.SpecExampleWordsDecode
  decide

/-! ### Words that are no command (R65, R66) -/

/-- A word that decodes to no command answers ERR_ILLEGAL and changes nothing (R63). -/
theorem step_of_decode_error {s : State} {w : CommandWord} {rest : List HostInput} {e : Illegal}
    (hin : s.inputs = .command w :: rest) (h : decode w = .error e) :
    step s = .next { s with inputs := rest, response := some ⟨.errIllegal, 0#32⟩ } := by
  rw [step_command s w rest hin, runCommand, h, raise_eq]

/-- A reserved opcode, a non-zero `RSV`, or a non-zero `AUX` or `DATA` where the opcode requires zero (R65, R66). -/
def HasIllegalField (w : CommandWord) : Prop :=
  0x09 ≤ (opcField w).toNat ∨ rsvField w ≠ 0x00#8 ∨
    ((opcField w).toNat ∈ [0x00, 0x04, 0x05, 0x07] ∧ auxField w ≠ 0x0000#16) ∨
    ((opcField w).toNat ∈ [0x00, 0x02, 0x05, 0x06, 0x07, 0x08] ∧ dataField w ≠ 0x00000000#32)

theorem not_hasIllegalField_encode (i : Instr) : ¬ HasIllegalField (encode i) := by
  cases i <;> simp [HasIllegalField, encode]

/-- Settles O7: a word that decodes is a command's own word, and no command's word has such a field. -/
theorem reservedAndMustBeZeroFieldsIllegal : Obligations.ReservedAndMustBeZeroFieldsIllegal := by
  intro s w rest hin hill
  cases hdec : decode w with
  | error e => exact ⟨⟨e, rfl⟩, step_of_decode_error hin hdec⟩
  | ok i =>
    obtain ⟨-, rfl⟩ := encode_of_decode hdec
    exact absurd hill (not_hasIllegalField_encode i)

/-! ### The rows of the opcode table (R63, R64) -/

/-- A command's word lies in the row that carries its mnemonic. -/
theorem encode_matches_row (i : Instr) : Laws.EncodeMatchesRow.Statement i := by
  cases i with
  | nop => exact Laws.EncodeMatchesRow.nop
  | tblWr a v => exact Laws.EncodeMatchesRow.tblWr a v
  | tblRd a => exact Laws.EncodeMatchesRow.tblRd a
  | construct len rate => exact Laws.EncodeMatchesRow.construct len rate
  | setFreq f => exact Laws.EncodeMatchesRow.setFreq f
  | getSample => exact Laws.EncodeMatchesRow.getSample
  | getInfo sel => exact Laws.EncodeMatchesRow.getInfo sel
  | release => exact Laws.EncodeMatchesRow.release
  | peek sel => exact Laws.EncodeMatchesRow.peek sel

/-- A row that looks at a whole field fixes it to the row's pattern. -/
theorem field_of_matches {r : OpcodeRow} {w : CommandWord} (h : r.Matches w) (start len : Nat)
    (hmask : r.mask.extractLsb' start len = BitVec.allOnes len) :
    w.extractLsb' start len = r.pattern.extractLsb' start len := by
  rw [← h, BitVec.extractLsb'_and, hmask, BitVec.and_allOnes]

/-- Every row looks at the whole of `OPC` and of `RSV`, and requires `RSV` zero. -/
theorem opcodeTable_opc_rsv : ∀ r ∈ opcodeTable,
    opcField r.mask = BitVec.allOnes 8 ∧ rsvField r.mask = BitVec.allOnes 8 ∧ rsvField r.pattern = 0#8 := by
  decide

/-- A word that a row matches decodes to that row's command: the fields the row looks at are its constants, the others
are the operands. -/
theorem decode_of_matches {r : OpcodeRow} {w : CommandWord} (hr : r ∈ opcodeTable) (h : r.Matches w) :
    ∃ i, decode w = .ok i ∧ i.mnemonic = r.mnemonic := by
  obtain ⟨hopcMask, hrsvMask, hrsvPattern⟩ := opcodeTable_opc_rsv r hr
  have hopc : opcField w = opcField r.pattern := field_of_matches h 56 8 hopcMask
  have hrsv : rsvField w = 0#8 := (field_of_matches h 48 8 hrsvMask).trans hrsvPattern
  have haux : auxField r.mask = BitVec.allOnes 16 → auxField w = auxField r.pattern := field_of_matches h 32 16
  have hdata : dataField r.mask = BitVec.allOnes 32 → dataField w = dataField r.pattern := field_of_matches h 0 32
  have hdec : decode w = decodeFields (opcField r.pattern).toNat (auxField w) (dataField w) := by
    rw [decode, if_pos hrsv, hopc]
  simp only [opcodeTable, List.mem_cons, List.not_mem_nil, or_false] at hr
  obtain rfl | rfl | rfl | rfl | rfl | rfl | rfl | rfl | rfl := hr
  · rw [haux (by decide), hdata (by decide)] at hdec
    exact ⟨.nop, hdec, rfl⟩
  · exact ⟨.tblWr (auxField w).toNat (dataField w), hdec, rfl⟩
  · rw [hdata (by decide)] at hdec
    exact ⟨.tblRd (auxField w).toNat, hdec, rfl⟩
  · exact ⟨.construct (auxField w) (dataField w), hdec, rfl⟩
  · rw [haux (by decide)] at hdec
    exact ⟨.setFreq (dataField w), hdec, rfl⟩
  · rw [haux (by decide), hdata (by decide)] at hdec
    exact ⟨.getSample, hdec, rfl⟩
  · rw [hdata (by decide)] at hdec
    exact ⟨.getInfo (auxField w).toNat, hdec, rfl⟩
  · rw [haux (by decide), hdata (by decide)] at hdec
    exact ⟨.release, hdec, rfl⟩
  · rw [hdata (by decide)] at hdec
    exact ⟨.peek (auxField w).toNat, hdec, rfl⟩

/-- Settles O6: a word that a row matches decodes to that row's command, so two rows of one word carry one mnemonic; a
word that decodes is a command's own word, which lies in a row. -/
theorem decodeFollowsOpcodeTable : Obligations.DecodeFollowsOpcodeTable := by
  intro w
  refine ⟨fun r hr r' hr' h h' => ?_, fun r hr h => decode_of_matches hr h, fun hnone s rest hin => ?_⟩
  · obtain ⟨i, hdec, hi⟩ := decode_of_matches hr h
    obtain ⟨i', hdec', hi'⟩ := decode_of_matches hr' h'
    obtain rfl : i = i' := Except.ok.inj (hdec.symm.trans hdec')
    exact List.inj_on_of_nodup_map (f := OpcodeRow.mnemonic) (by decide) hr hr' (hi.symm.trans hi')
  · cases hdec : decode w with
    | error e => exact step_of_decode_error hin hdec
    | ok i =>
      obtain ⟨-, rfl⟩ := encode_of_decode hdec
      obtain ⟨r, hr, -, hmatch⟩ := encode_matches_row i
      exact absurd hmatch (hnone r hr)

/-! ### One response per command (R61) -/

/-- A result that goes on carries one response, and `P` holds of it. -/
def Responds (P : Response → Prop) (res : Result) : Prop :=
  ∀ t, res = .next t → ∃ r, t.response = some r ∧ P r

@[simp] theorem responds_respond (P : Response → Prop) (st : Status) (d : Word) (s : State) :
    Responds P (respond st d s) ↔ P ⟨st, d⟩ := by
  simp [Responds, respond_eq]

@[simp] theorem responds_raise (P : Response → Prop) (st : Status) (s : State) :
    Responds P (raise st s) ↔ P ⟨st, 0#32⟩ := responds_respond P st _ s

@[simp] theorem responds_modelFault (P : Response → Prop) (e : Fault) : Responds P (modelFault e) := by
  simp [Responds, modelFault]

@[simp] theorem responds_ite (P : Response → Prop) (c : Prop) [Decidable c] (res res' : Result) :
    Responds P (if c then res else res') ↔ (c → Responds P res) ∧ (¬ c → Responds P res') := by
  split <;> simp_all

/-- The data are zero, unless the status is OK and the command has a result (R61). -/
def DataAsDue (i : Instr) (r : Response) : Prop :=
  (r.status ≠ .ok → r.rdata = 0#32) ∧ (hasResult i = false → r.rdata = 0#32)

/-- Every response of a command carries its data as due, whatever branch the command takes. -/
theorem exec_responds (i : Instr) (s : State) : Responds (DataAsDue i) (exec i s) := by
  cases i with
  | nop => simp [exec, execNop, DataAsDue]
  | tblWr a v => simp [exec, execTblWr, DataAsDue]
  | tblRd a => cases h : tableRead s a <;> simp [exec, execTblRd, h, DataAsDue, hasResult]
  | construct len rate => simp [exec, execConstruct, DataAsDue]
  | setFreq f => simp [exec, execSetFreq, DataAsDue]
  | getSample => cases h : lerp s s.index <;> simp [exec, execGetSample, h, DataAsDue, hasResult]
  | getInfo sel => cases h : infoSelector sel <;> simp [exec, execGetInfo, h, DataAsDue, hasResult]
  | release => simp [exec, execRelease, DataAsDue]
  | peek sel => cases h : peekSelector sel <;> simp [exec, execPeek, h, DataAsDue, hasResult]

/-- No command takes an input from the port or adds one. -/
theorem effect_inputs {i : Instr} {s t : State} (h : Effect s i t) : t.inputs = s.inputs := by cases h <;> rfl

/-- Settles O5: a word that is no command gives ERR_ILLEGAL with zero data; a command leaves the port alone and responds
as its arm says. -/
theorem oneResponsePerCommand : Obligations.OneResponsePerCommand := by
  intro s t w rest hin h
  cases hdec : decode w with
  | error e =>
    rw [step_of_decode_error hin hdec] at h
    cases h
    exact ⟨_, rfl, rfl, fun _ => rfl, fun _ _ _ => rfl⟩
  | ok i =>
    rw [step_command s w rest hin, runCommand_of_decode hdec] at h
    obtain ⟨r, hr, hstatus, hresult⟩ := exec_responds i _ t h
    refine ⟨r, hr, effect_inputs (exec_effect h), hstatus, fun j hj hnone => ?_⟩
    obtain rfl : i = j := Except.ok.inj hj
    exact hresult hnone

/-! ### The assembler (R68, R70) -/

/-- A line is refused unless every command it stands for is well formed. -/
theorem assembleLine_wellFormed {sineImage : Nat → List F32} {line : List Char} {is : List Instr}
    (h : assembleLine sineImage line = some is) : ∀ i ∈ is, i.WellFormed := by
  unfold assembleLine at h
  dsimp only at h
  split at h
  · cases h
    simp
  · obtain ⟨l, -, hl⟩ := Option.bind_eq_some_iff.mp h
    split at hl
    next hacc =>
      cases hl
      unfold AsmLine.accepted at hacc
      rw [Bool.and_eq_true] at hacc
      exact List.all_eq_true.mp hacc.2
    · cases hl

theorem assembleLines_wellFormed {sineImage : Nat → List F32} {lines : List (List Char)} {is : List Instr}
    (h : assembleLines sineImage lines = some is) : ∀ i ∈ is, i.WellFormed := by
  induction lines generalizing is with
  | nil =>
    cases h
    simp
  | cons line rest ih =>
    obtain ⟨first, hfirst, hmap⟩ := Option.bind_eq_some_iff.mp h
    obtain ⟨later, hlater, rfl⟩ := Option.map_eq_some_iff.mp hmap
    intro i hi
    exact (List.mem_append.mp hi).elim (assembleLine_wellFormed hfirst i) (ih hlater i)

/-- Settles O11: the assembler's words are the words of well-formed commands. -/
theorem assembledWordsDecode : Obligations.AssembledWordsDecode := by
  intro sineImage text ws h w hw
  obtain ⟨is, his, rfl⟩ := Option.map_eq_some_iff.mp h
  obtain ⟨i, hi, rfl⟩ := List.mem_map.mp hw
  have hwf := assembleLines_wellFormed his i hi
  exact ⟨i, decode_encode i hwf, hwf, rfl⟩

/-! ### LOAD_TABLE (R70, R80, R84) -/

/-- TBL_WR past its three checks (R80). -/
theorem exec_tblWr_of_legal {s : State} {a : Nat} {v : F32} (hmode : s.mode = .idle)
    (ha : a < s.params.tableDepth.toNat) (hv : f32IsFinite v = true) :
    exec (.tblWr a v) s =
      .next { s with table := Memory.write s.table a v, response := some ⟨.ok, 0#32⟩ } := by
  simp [exec, execTblWr, hmode, inTable, ha, hv, respond_eq, State.setEntry]

/-- A table address fits `AUX`, since TABLE_DEPTH has 16 bits (R28, R62). -/
theorem wellFormed_tblWr {p : Params} {a : Nat} (ha : a < p.tableDepth.toNat) (v : F32) :
    (Instr.tblWr a v).WellFormed := decide_eq_true (ha.trans p.tableDepth.isLt)

/-- A legal TBL_WR at the port stores its entry in one step (R80). -/
theorem step_tblWr {s : State} {a : Nat} {v : F32} {rest : List HostInput}
    (hin : s.inputs = .command (encode (.tblWr a v)) :: rest) (hmode : s.mode = .idle)
    (ha : a < s.params.tableDepth.toNat) (hv : f32IsFinite v = true) :
    step s = .next { s with
      inputs := rest, table := Memory.write s.table a v, response := some ⟨.ok, 0#32⟩ } := by
  rw [step_command s _ rest hin, runCommand_of_decode (decode_encode _ (wellFormed_tblWr ha v))]
  exact exec_tblWr_of_legal (s := { s with inputs := rest }) hmode ha hv

/-- A run starts with its first step. -/
theorem run_succ_of_step {s t : State} (h : step s = .next t) (k : Nat) :
    Host.Core.run Sys2Proof.core (k + 1) s = Host.Core.run Sys2Proof.core k t := by
  have hcore : Sys2Proof.core.step s = .next t := h
  simp only [Host.Core.run, hcore]

/-- The writes from address `a` up leave the values in the entries from `a` up, and every other entry as it was: an
entry once written is below every later address. -/
theorem run_loadTableFrom (vs : List F32) : ∀ (a : Nat) (s : State) (rest : List HostInput),
    s.mode = .idle → a + vs.length ≤ s.params.tableDepth.toNat → (∀ v ∈ vs, f32IsFinite v = true) →
    s.inputs = (loadTableFrom a vs).map (fun i => .command (encode i)) ++ rest →
    ∃ t : State, Host.Core.run Sys2Proof.core vs.length s = .next t ∧ t.mode = .idle ∧ t.inputs = rest ∧
      (∀ (n : Nat) (h : n < vs.length), Memory.read t.table (a + n) = some vs[n]) ∧
      ∀ b, b < a ∨ a + vs.length ≤ b → Memory.read t.table b = Memory.read s.table b := by
  induction vs with
  | nil => exact fun a s rest hmode _ _ hin => ⟨s, rfl, hmode, hin, by simp, fun _ _ => rfl⟩
  | cons v vs ih =>
    intro a s rest hmode hfit hfin hin
    obtain ⟨hv, hvs⟩ := List.forall_mem_cons.mp hfin
    rw [List.length_cons] at hfit
    have hstep := step_tblWr hin hmode (by omega) hv
    have hfit' : a + 1 + vs.length ≤ s.params.tableDepth.toNat := by omega
    obtain ⟨t, hrun, htmode, htin, hread, hframe⟩ := ih (a + 1)
      { s with
        inputs := (loadTableFrom (a + 1) vs).map (fun i => .command (encode i)) ++ rest,
        table := Memory.write s.table a v, response := some ⟨.ok, 0#32⟩ }
      rest hmode hfit' hvs rfl
    refine ⟨t, (run_succ_of_step hstep _).trans hrun, htmode, htin, fun n hn => ?_, fun b hb => ?_⟩
    · cases n with
      | zero => simpa using hframe a (by omega)
      | succ n => simpa [Nat.add_right_comm, Nat.add_assoc] using hread n (by simpa using hn)
    · rw [List.length_cons] at hb
      rw [hframe b (by omega)]
      exact Memory.read_write_other s.table a b v (by omega)

/-- Settles O27: the writes of LOAD_TABLE from address 0, with no address below it. -/
theorem loadTableLeavesTheValues : Obligations.LoadTableLeavesTheValues := by
  intro vs s rest hmode hfit hfin hin
  obtain ⟨t, hrun, htmode, htin, hread, hframe⟩ := run_loadTableFrom vs 0 s rest hmode (by omega) hfin hin
  exact ⟨t, hrun, htmode, htin, by simpa using hread, fun a ha => hframe a (by omega)⟩

end Sys2Proof.Proofs
end

section
/-! Proofs of the statements about the table store: TBL_WR and TBL_RD by the branch they take (R80, R81), and the square
image (R82). -/

namespace Sys2Proof.Proofs

open Sys2Proof Sys2Proof.Machine

/-! ### The square image (R82) -/

theorem squareLow_ne_squareHigh : squareLow ≠ squareHigh := by decide

theorem length_buildSquare (len : Nat) : (buildSquare len).length = len := by simp [buildSquare]

theorem getElem_buildSquare (len n : Nat) (h : n < (buildSquare len).length) :
    (buildSquare len)[n] = squareSample len n := by
  simp [buildSquare]

/-- The image is a low run followed by a high run, and the boundary sample belongs to the low run. -/
theorem buildSquare_eq_append_replicate {len : Nat} (hlen : 1 ≤ len) :
    buildSquare len =
      List.replicate (len / 2 + 1) squareLow ++ List.replicate (len - len / 2 - 1) squareHigh := by
  refine List.ext_getElem ?_ fun n h _ => ?_
  · simp only [length_buildSquare, List.length_append, List.length_replicate]
    omega
  · rw [getElem_buildSquare, squareSample, List.getElem_append]
    simp only [List.getElem_replicate, List.length_replicate, Nat.lt_succ_iff, dite_eq_ite]

theorem count_squareLow_buildSquare {len : Nat} (hlen : 1 ≤ len) :
    (buildSquare len).count squareLow = len / 2 + 1 := by
  simp [buildSquare_eq_append_replicate hlen, List.count_replicate, squareLow_ne_squareHigh.symm]

theorem count_squareHigh_buildSquare {len : Nat} (hlen : 1 ≤ len) :
    (buildSquare len).count squareHigh = len - len / 2 - 1 := by
  simp [buildSquare_eq_append_replicate hlen, List.count_replicate, squareLow_ne_squareHigh]

/-- Settles O26: the entries are the samples, and the counts are the lengths of the two runs. -/
theorem squareImageFollowsTheBoundaryPolicy : Obligations.SquareImageFollowsTheBoundaryPolicy := by
  intro len hlen
  exact ⟨length_buildSquare len, getElem_buildSquare len, count_squareLow_buildSquare hlen,
    count_squareHigh_buildSquare hlen⟩

/-! ### The address check (R40, R42) -/

theorem inTable_iff (s : State) (a : Nat) : inTable s a = true ↔ a < s.params.tableDepth.toNat := decide_eq_true_iff

theorem inTable_eq_false_iff (s : State) (a : Nat) : inTable s a = false ↔ s.params.tableDepth.toNat ≤ a :=
  decide_eq_false_iff_not.trans not_lt

/-! ### The branches of TBL_WR in IDLE (R80, R142) -/

/-- Settles O22: the legal store is a write of the table, read back at its own and at every other address. -/
theorem tblWrStoresTheEntry : Obligations.TblWrStoresTheEntry := by
  intro s addr v hmode haddr hv
  exact ⟨Memory.write s.table addr v, exec_tblWr_of_legal hmode haddr hv, Memory.read_write_same s.table addr v,
    fun a ha => Memory.read_write_other s.table addr a v ha⟩

theorem exec_tblWr_of_outside {s : State} {a : Nat} (v : F32) (hmode : s.mode = .idle)
    (ha : s.params.tableDepth.toNat ≤ a) :
    exec (.tblWr a v) s = .next { s with response := some ⟨.errRange, 0#32⟩ } := by
  simp [exec, execTblWr, hmode, (inTable_eq_false_iff s a).mpr ha, raise_eq]

theorem exec_tblWr_of_nonfinite {s : State} {a : Nat} {v : F32} (hmode : s.mode = .idle)
    (ha : a < s.params.tableDepth.toNat) (hv : f32IsFinite v = false) :
    exec (.tblWr a v) s = .next { s with response := some ⟨.errNonfinite, 0#32⟩ } := by
  simp [exec, execTblWr, hmode, (inTable_iff s a).mpr ha, hv, raise_eq]

/-- Settles O23: the address is refused whatever the value is, and the value only at an address in the table. -/
theorem tblWrRefusals : Obligations.TblWrRefusals := by
  intro s addr v hmode
  exact ⟨exec_tblWr_of_outside v hmode, exec_tblWr_of_nonfinite hmode⟩

/-! ### The branches of TBL_RD (R31, R81) -/

theorem exec_tblRd_of_outside {s : State} {a : Nat} (ha : s.params.tableDepth.toNat ≤ a) :
    exec (.tblRd a) s = .next { s with response := some ⟨.errRange, 0#32⟩ } := by
  simp [exec, execTblRd, (inTable_eq_false_iff s a).mpr ha, raise_eq]

theorem exec_tblRd_of_read {s : State} {a : Nat} {v : F32} (ha : a < s.params.tableDepth.toNat)
    (hread : tableRead s a = .ok v) : exec (.tblRd a) s = .next { s with response := some ⟨.ok, v⟩ } := by
  simp [exec, execTblRd, (inTable_iff s a).mpr ha, hread, respond_eq]

theorem exec_tblRd_of_error {s : State} {a : Nat} {e : Fault} (ha : a < s.params.tableDepth.toNat)
    (hread : tableRead s a = .error e) : exec (.tblRd a) s = .fault e := by
  simp [exec, execTblRd, (inTable_iff s a).mpr ha, hread, modelFault]

theorem written_eq_false_iff (m : Memory) (a : Nat) : Memory.written m a = false ↔ Memory.read m a = none :=
  Option.isSome_eq_false_iff.trans Option.isNone_iff_eq_none

/-- Settles O24: the address is in the table and its read succeeds, in either mode. -/
theorem tblRdAnswersTheEntry : Obligations.TblRdAnswersTheEntry := by
  intro s addr v haddr hread
  exact exec_tblRd_of_read haddr ((tableRead_ok s addr v).mpr hread)

/-- Settles O25: past the table nothing is read, and in the table an unwritten entry makes the read fail. -/
theorem tblRdRangeAndUnwritten : Obligations.TblRdRangeAndUnwritten := by
  intro s addr
  refine ⟨exec_tblRd_of_outside, fun haddr hunwritten => ?_⟩
  have hnone : Memory.read s.table addr = none := (written_eq_false_iff s.table addr).mp hunwritten
  exact exec_tblRd_of_error haddr ((tableRead_error s addr _).mpr ⟨hnone, rfl⟩)

end Sys2Proof.Proofs
end

section
/-! Proofs of the statements about the lifecycle: the mode check (R93), and CONSTRUCT, RELEASE and NOP by the branch
they take (R90 to R92, R142). -/

namespace Sys2Proof.Proofs

open Sys2Proof Sys2Proof.Machine

/-! ### The mode check (R93, R142) -/

/-- The mode is checked first: outside ACTIVE each of R93's four commands raises ERR_STATE. -/
theorem exec_activeOnly_of_not_active {i : Instr} {s : State} (hi : activeOnly i = true) (hmode : s.mode ≠ .active) :
    exec i s = .next { s with response := some ⟨.errState, 0#32⟩ } := by
  cases i with
  | getSample => exact exec_getSample_of_not_active hmode
  | setFreq | getInfo | release => exact (if_pos hmode).trans (raise_eq .errState s)
  | nop | tblWr | tblRd | construct | peek => cases hi

/-- The mode is checked first: outside IDLE each of R93's two commands raises ERR_STATE. -/
theorem exec_idleOnly_of_not_idle {i : Instr} {s : State} (hi : idleOnly i = true) (hmode : s.mode ≠ .idle) :
    exec i s = .next { s with response := some ⟨.errState, 0#32⟩ } := by
  cases i with
  | tblWr | construct => exact (if_pos hmode).trans (raise_eq .errState s)
  | nop | tblRd | setFreq | getSample | getInfo | release | peek => cases hi

/-- Settles O14: each mode is not the other, and the mode check comes before every operand check. -/
theorem wrongModeAnswersErrState : Obligations.WrongModeAnswersErrState := by
  rintro i s (⟨hmode, hi⟩ | ⟨hmode, hi⟩)
  · exact exec_activeOnly_of_not_active hi (by simp [hmode])
  · exact exec_idleOnly_of_not_idle hi (by simp [hmode])

/-! ### NOP (R92) -/

/-- Settles O28: NOP is its response. -/
theorem nopChangesNothing : Obligations.NopChangesNothing :=
  fun s => respond_eq .ok 0#32 s

/-! ### The branches of CONSTRUCT in IDLE (R90, R142) -/

/-- The length is refused exactly at 0 and above TABLE_DEPTH. -/
theorem validLength_eq_false_iff (s : State) (len : BitVec 16) :
    validLength s len = false ↔ len = 0#16 ∨ s.params.tableDepth.toNat < len.toNat := by
  rw [← Bool.not_eq_true, validLength_iff, not_and_or, not_not, not_le]

theorem validLength_of_bounds {s : State} {len : BitVec 16} (hpos : 1 ≤ len.toNat)
    (hle : len.toNat ≤ s.params.tableDepth.toNat) : validLength s len = true :=
  (validLength_iff s len).mpr ⟨fun h0 => by simp [h0] at hpos, hle⟩

theorem exec_construct_of_legal {s : State} {len : BitVec 16} {rate : Word} (hmode : s.mode = .idle)
    (hlen : validLength s len = true) (hrate : rate ≠ 0#32) :
    exec (.construct len rate) s = .next { s with
      mode := .active, tableLen := len, sampleRate := rate, index := 0x00000000#32, incr := 0x00000000#32,
      response := some ⟨.ok, 0#32⟩ } := by
  simp [exec, execConstruct, hmode, hlen, hrate, respond_eq, State.setOscillator]

theorem exec_construct_of_invalidLength {s : State} {len : BitVec 16} (rate : Word) (hmode : s.mode = .idle)
    (hlen : validLength s len = false) :
    exec (.construct len rate) s = .next { s with response := some ⟨.errInvalidTable, 0#32⟩ } := by
  simp [exec, execConstruct, hmode, hlen, raise_eq]

theorem exec_construct_of_zeroRate {s : State} {len : BitVec 16} (hmode : s.mode = .idle)
    (hlen : validLength s len = true) :
    exec (.construct len 0#32) s = .next { s with response := some ⟨.errInvalidRate, 0#32⟩ } := by
  simp [exec, execConstruct, hmode, hlen, raise_eq]

/-- Settles O29: CONSTRUCT past its three checks. -/
theorem constructMakesTheOscillator : Obligations.ConstructMakesTheOscillator := by
  intro s len rate hmode hpos hle hrate
  exact exec_construct_of_legal hmode (validLength_of_bounds hpos hle) hrate

/-- Settles O30: the length is refused whatever the rate is, and the rate only at a length in bounds. -/
theorem constructRefusals : Obligations.ConstructRefusals := by
  intro s len rate hmode
  refine ⟨fun hlen => ?_, fun hpos hle hrate => ?_⟩
  · exact exec_construct_of_invalidLength rate hmode ((validLength_eq_false_iff s len).mpr hlen)
  · subst hrate
    exact exec_construct_of_zeroRate hmode (validLength_of_bounds hpos hle)

/-! ### RELEASE in ACTIVE (R85, R91) -/

theorem exec_release_of_active {s : State} (hmode : s.mode = .active) :
    exec .release s = .next { s with
      mode := .idle, tableLen := 0#16, sampleRate := 0#32, index := 0x00000000#32, incr := 0x00000000#32,
      response := some ⟨.ok, 0#32⟩ } := by
  simp [exec, execRelease, hmode, respond_eq, State.setOscillator]

/-- Settles O31: RELEASE past its mode check writes the oscillator's elements alone. -/
theorem releaseDestroysTheOscillator : Obligations.ReleaseDestroysTheOscillator :=
  fun _ => exec_release_of_active

end Sys2Proof.Proofs
end

section
/-! Proofs of the statements about the phase accumulator: the increment and SET_FREQ (R100, R101), the two wraps (R103,
R104), and pulls with a zero or an integer increment (R102, R105, R111). -/

namespace Sys2Proof.Proofs

open Sys2Proof Sys2Proof.Machine

/-! ### Values and their bits (R7) -/

/-- Two data with the same sign bit and the same value are the same bits. -/
theorem f32_eq_of_scaled {x y : F32} (hs : f32Sign x = f32Sign y) (hv : f32Scaled x = f32Scaled y) : x = y :=
  f32_eq_of_magnitude x y hs (by rw [← f32Scaled_natAbs, ← f32Scaled_natAbs, hv])

/-- Only zero has two data. -/
theorem f32_eq_of_scaled_ne_zero {x y : F32} (h0 : f32Scaled y ≠ 0) (hv : f32Scaled x = f32Scaled y) : x = y :=
  f32_eq_of_scaled (by rw [f32Sign_eq_scaled_neg x (hv ▸ h0), f32Sign_eq_scaled_neg y h0, hv]) hv

theorem f32Scaled_eq_zero_iff (x : F32) : f32Scaled x = 0 ↔ f32Magnitude x = 0 := by
  rw [← f32Scaled_natAbs, Int.natAbs_eq_zero]

/-- Only the two zeros have the magnitude 0, so it is never an infinity's or a NaN's. -/
theorem f32IsFinite_of_magnitude_eq_zero {x : F32} (h : f32Magnitude x = 0) : f32IsFinite x = true := by
  have hbits : f32Bits x = 0 := bitsMagnitude_inj _ _ (by rw [← f32Magnitude_eq, h]; rfl)
  rw [f32IsFinite_iff, hbits]
  decide

theorem f32Magnitude_lt_of_scaled {x : F32} {a b : Nat} (hx : f32Scaled x = ((a * f32Unit : Nat) : Int))
    (h : a < b) : f32Magnitude x < b * f32Unit := by
  rw [← f32Scaled_natAbs, hx, Int.natAbs_natCast]
  exact Nat.mul_lt_mul_of_pos_right h f32Unit_pos

theorem toF32_scaled {n : Nat} (h : n ≤ 2 ^ 24) : f32Scaled (toF32 n) = ((n * f32Unit : Nat) : Int) :=
  (integerConversionIsCorrectlyRounded n).2 h

/-- Zero rounds to a zero (R8). -/
theorem f32Magnitude_round_zero (neg : Bool) {d : Nat} (hd : 0 < d) : f32Magnitude (f32Round neg 0 d) = 0 := by
  have hle := (round_le_of_le 0 d 0 hd (by decide) (Nat.zero_le _)).2
  rw [f32Magnitude_round]
  exact Nat.le_zero.mp hle

/-! ### Exact sums, and the sign of a sum (R8) -/

/-- A sum whose magnitude is that of a finite datum is exact. -/
theorem f32Add_exact {x y z : F32} (hx : f32IsFinite x = true) (hy : f32IsFinite y = true) (hz : f32IsFinite z = true)
    (h : f32Magnitude z = (f32Scaled x + f32Scaled y).natAbs) :
    f32IsFinite (f32Add x y) = true ∧ f32Scaled (f32Add x y) = f32Scaled x + f32Scaled y := by
  obtain ⟨hlt, hval⟩ := roundMagnitude_exact (f32Bits z) 1 one_pos ((f32IsFinite_iff z).mp hz)
  rw [one_mul, ← f32Magnitude_eq, h] at hlt hval
  refine ⟨?_, f32Scaled_add x y hx hy hval⟩
  obtain ⟨neg, hround, -, -⟩ := f32Add_round x y hx hy
  rwa [hround, f32IsFinite_iff, f32Bits_round]

/-- Adding a zero of either sign keeps the value. -/
theorem f32Add_zero_right {x z : F32} (hx : f32IsFinite x = true) (hz : f32Magnitude z = 0) :
    f32IsFinite (f32Add x z) = true ∧ f32Scaled (f32Add x z) = f32Scaled x := by
  have hsum : f32Scaled x + f32Scaled z = f32Scaled x := by rw [(f32Scaled_eq_zero_iff z).mpr hz, add_zero]
  have h := f32Add_exact hx (f32IsFinite_of_magnitude_eq_zero hz) hx (by rw [hsum, f32Scaled_natAbs])
  rwa [hsum] at h

/-- The sign bit of a sum: the exact sum's, or of a zero sum both operands' together. -/
theorem f32Sign_add {x y : F32} (hx : f32IsFinite x = true) (hy : f32IsFinite y = true) :
    f32Sign (f32Add x y) =
      if f32Scaled x + f32Scaled y = 0 then f32Sign x && f32Sign y else decide (f32Scaled x + f32Scaled y < 0) := by
  obtain ⟨neg, hround, hne, hzero⟩ := f32Add_round x y hx hy
  rw [hround, f32Sign_round]
  split
  next h => exact hzero h
  next h => exact hne h

/-- A sum that is not negative has its sign bit clear where the first operand does. -/
theorem f32Sign_add_of_nonneg {x y : F32} (hx : f32IsFinite x = true) (hy : f32IsFinite y = true)
    (hsign : f32Sign x = false) (h0 : 0 ≤ f32Scaled x + f32Scaled y) : f32Sign (f32Add x y) = false := by
  simp [f32Sign_add hx hy, hsign, not_lt.mpr h0]

/-! ### The reference wrap (R104) -/

/-- A value below L in magnitude is its own remainder. -/
theorem wrapF_of_lt {x : F32} {len : BitVec 16} (hx : f32IsFinite x = true) (hlen : len ≠ 0#16)
    (h : f32Magnitude x < len.toNat * f32Unit) : wrapF x len = x := by
  obtain ⟨-, hsign, hmag⟩ :=
    f32Fmod_exact x (lengthF32 len) hx (lengthF32_finite len) (lengthF32_magnitude_ne_zero len hlen)
  exact f32_eq_of_magnitude _ _ hsign (by rw [wrapF, hmag, lengthF32_magnitude, Nat.mod_eq_of_lt h])

/-- Settles O36: the range of a remainder by a length. -/
theorem referenceWrapKeepsTheSign : Obligations.ReferenceWrapKeepsTheSign :=
  fun x len hx hlen => ⟨rfl, wrapF_range x len hx hlen⟩

/-! ### The Euclidean wrap (R103) -/

theorem renormalise_of_nonneg {r : F32} (l : F32) (hr : f32IsFinite r = true) (h0 : 0 ≤ f32Scaled r) :
    renormalise r l = r := by
  simp [renormalise, f32Lt_zero r hr, not_lt.mpr h0]

theorem renormalise_of_neg {r : F32} (l : F32) (hr : f32IsFinite r = true) (hneg : f32Scaled r < 0) :
    renormalise r l = f32Fmod (f32Add r l) l := by
  simp [renormalise, f32Lt_zero r hr, hneg]

theorem positiveZero_of_zero {r : F32} (hr : f32IsFinite r = true) (h0 : f32Scaled r = 0) :
    positiveZero r = 0x00000000#32 := by
  simp [positiveZero, f32Eq_zero r hr, h0]

theorem f32Scaled_positiveZero {r : F32} (hr : f32IsFinite r = true) : f32Scaled (positiveZero r) = f32Scaled r := by
  by_cases h0 : f32Scaled r = 0
  · rw [positiveZero_of_zero hr h0, h0]
    decide
  · simp [positiveZero, f32Eq_zero r hr, h0]

/-- `+0.0` itself is the one zero with its sign bit clear. -/
theorem positiveZero_of_sign_clear {r : F32} (hr : f32IsFinite r = true) (hsign : f32Sign r = false) :
    positiveZero r = r := by
  by_cases h0 : f32Scaled r = 0
  · rw [positiveZero_of_zero hr h0]
    exact f32_eq_of_scaled (by rw [hsign]; decide) (by rw [h0]; decide)
  · simp [positiveZero, f32Eq_zero r hr, h0]

section
variable {x : F32} {len : BitVec 16} (hx : f32IsFinite x = true) (hlen : len ≠ 0#16)
include hx hlen

theorem wrapE_of_remainder_nonneg (h0 : 0 ≤ f32Scaled (wrapF x len)) : wrapE x len = positiveZero (wrapF x len) :=
  congrArg positiveZero (renormalise_of_nonneg _ (wrapF_range x len hx hlen).1 h0)

theorem wrapE_of_sign_clear (hsign : f32Sign x = false) : wrapE x len = wrapF x len := by
  obtain ⟨hfin, hkeep, -⟩ := wrapF_range x len hx hlen
  have hclear : f32Sign (wrapF x len) = false := hkeep.trans hsign
  rw [wrapE_of_remainder_nonneg hx hlen (f32Scaled_nonneg _ hclear), positiveZero_of_sign_clear hfin hclear]

/-- A negative remainder and L have a finite sum, above 0. -/
theorem add_length_of_remainder_neg (hneg : f32Scaled (wrapF x len) < 0) :
    f32IsFinite (f32Add (wrapF x len) (lengthF32 len)) = true ∧
      f32Sign (f32Add (wrapF x len) (lengthF32 len)) = false := by
  obtain ⟨hfin, -, hlt⟩ := wrapF_range x len hx hlen
  refine ⟨f32Add_finite_of_bound _ _ _ hfin (lengthF32_finite len) hlt (by have := len.isLt; omega), ?_⟩
  have hpos : 0 < f32Scaled (wrapF x len) + f32Scaled (lengthF32 len) := by
    rw [← f32Scaled_natAbs] at hlt
    rw [lengthF32_scaled]
    omega
  simp [f32Sign_add hfin (lengthF32_finite len), hpos.ne', hpos.le]

theorem wrapE_of_remainder_neg (hneg : f32Scaled (wrapF x len) < 0) :
    wrapE x len = wrapF (f32Add (wrapF x len) (lengthF32 len)) len := by
  obtain ⟨hfin, hsign⟩ := add_length_of_remainder_neg hx hlen hneg
  obtain ⟨hfin', hkeep, -⟩ := wrapF_range _ len hfin hlen
  calc wrapE x len = positiveZero (wrapF (f32Add (wrapF x len) (lengthF32 len)) len) :=
        congrArg positiveZero (renormalise_of_neg _ (wrapF_range x len hx hlen).1 hneg)
    _ = _ := positiveZero_of_sign_clear hfin' (hkeep.trans hsign)

/-- Either wrap leaves a value in [0, L) as it is, but for the sign bit of `-0.0` (R103, R104). -/
theorem wrapPhase_of_in_range (wm : WrapMode) (h0 : 0 ≤ f32Scaled x) (hlt : f32Magnitude x < len.toNat * f32Unit) :
    f32Scaled (wrapPhase wm x len) = f32Scaled x ∧ (f32Sign x = false → wrapPhase wm x len = x) := by
  have hself : wrapF x len = x := wrapF_of_lt hx hlen hlt
  cases wm with
  | euclidean =>
    refine ⟨?_, fun hsign => (wrapE_of_sign_clear hx hlen hsign).trans hself⟩
    rw [wrapPhase, wrapE_of_remainder_nonneg hx hlen (hself.symm ▸ h0), hself, f32Scaled_positiveZero hx]
  | fmod => exact ⟨congrArg f32Scaled hself, fun _ => hself⟩

end

/-- Settles O35: the range, and the wrap by the sign of the remainder. -/
theorem euclideanWrapStaysInRange : Obligations.EuclideanWrapStaysInRange := by
  intro x len hx hlen
  obtain ⟨hfin, hsign, hlt⟩ := wrapE_range x len hx hlen
  refine ⟨hfin, hsign, hlt, wrapE_of_sign_clear hx hlen, fun hzero => ?_, wrapE_of_remainder_neg hx hlen⟩
  rw [wrapE_of_remainder_nonneg hx hlen hzero.ge]
  exact positiveZero_of_zero (wrapF_range x len hx hlen).1 hzero

/-! ### The increment (R100) -/

theorem lengthF32_sign (len : BitVec 16) : f32Sign (lengthF32 len) = false := toF32_sign _

theorem rateF32_sign (rate : BitVec 32) : f32Sign (rateF32 rate) = false := toF32_sign _

theorem rateF32_finite (rate : BitVec 32) : f32IsFinite (rateF32 rate) = true := toF32_finite _ (rate_toNat_lt rate)

/-- A rate that is not 0 converts to at least 1.0. -/
theorem rateF32_ge_unit {rate : BitVec 32} (h : rate ≠ 0#32) : f32Unit ≤ f32Magnitude (rateF32 rate) :=
  toF32_ge_unit _ (rate_toNat_lt rate) (rate_pos_of_ne rate h)

/-- A factor or divisor with its sign bit clear leaves the other operand's sign. -/
theorem f32SignXor_of_sign_clear (x : F32) {y : F32} (hy : f32Sign y = false) : f32SignXor x y = f32Sign x := by
  simp [f32SignXor, hy]

/-- An infinite operand by a finite one that is not zero: an infinity. -/
theorem f32Mul_infinite {x y : F32} (hx : f32IsNaN x = false) (hinf : f32IsInf x = true) (hy : f32IsFinite y = true)
    (h0 : f32Magnitude y ≠ 0) : f32Mul x y = f32Infinity (f32SignXor x y) := by
  simp [f32Mul, hx, hinf, h0, f32IsNaN_of_finite y hy]

theorem f32Div_infinite {x y : F32} (hx : f32IsNaN x = false) (hinf : f32IsInf x = true) (hy : f32IsFinite y = true) :
    f32Div x y = f32Infinity (f32SignXor x y) := by
  simp [f32Div, hx, hinf, f32IsNaN_of_finite y hy, f32IsInf_of_finite y hy]

/-- The product with a length is not NaN, and has the frequency's sign. -/
theorem f32Mul_length {f : F32} {len : BitVec 16} (hf : f32IsNaN f = false) (hlen : len ≠ 0#16) :
    f32IsNaN (f32Mul f (lengthF32 len)) = false ∧ f32Sign (f32Mul f (lengthF32 len)) = f32Sign f := by
  have hsign := f32SignXor_of_sign_clear f (lengthF32_sign len)
  obtain hfin | ⟨-, hinf⟩ := finite_or_infinite f hf
  · rw [f32Mul_round f _ hfin (lengthF32_finite len)]
    exact ⟨f32Round_not_nan _ _ _, (f32Sign_round _ _ _).trans hsign⟩
  · rw [f32Mul_infinite hf hinf (lengthF32_finite len) (lengthF32_magnitude_ne_zero len hlen)]
    obtain ⟨-, hnan, hinfSign, -⟩ := f32Infinity_facts (f32SignXor f (lengthF32 len))
    exact ⟨hnan, hinfSign.trans hsign⟩

/-- The quotient by a rate is not NaN, has the dividend's sign, and is finite exactly where the dividend is. -/
theorem f32Div_rate {p : F32} {rate : BitVec 32} (hp : f32IsNaN p = false) (hrate : rate ≠ 0#32) :
    f32IsNaN (f32Div p (rateF32 rate)) = false ∧ f32Sign (f32Div p (rateF32 rate)) = f32Sign p ∧
      f32IsFinite (f32Div p (rateF32 rate)) = f32IsFinite p := by
  have hsign := f32SignXor_of_sign_clear p (rateF32_sign rate)
  obtain hfin | ⟨hnfin, hinf⟩ := finite_or_infinite p hp
  · obtain ⟨hq, hqsign⟩ := f32Div_finite p _ hfin (rateF32_finite rate) (rateF32_ge_unit hrate)
    exact ⟨f32IsNaN_of_finite _ hq, hqsign.trans hsign, hq.trans hfin.symm⟩
  · rw [f32Div_infinite hp hinf (rateF32_finite rate)]
    obtain ⟨-, hnan, hinfSign, hinfFin⟩ := f32Infinity_facts (f32SignXor p (rateF32 rate))
    exact ⟨hnan, hinfSign.trans hsign, hinfFin.trans hnfin.symm⟩

/-- A zero times a finite datum is a zero. -/
theorem f32Mul_zero_left {x y : F32} (hx : f32Magnitude x = 0) (hy : f32IsFinite y = true) :
    f32Magnitude (f32Mul x y) = 0 := by
  rw [f32Mul_round x y (f32IsFinite_of_magnitude_eq_zero hx) hy, hx, zero_mul]
  exact f32Magnitude_round_zero _ f32Unit_pos

/-- A zero over a rate is a zero. -/
theorem f32Div_rate_zero {p : F32} {rate : BitVec 32} (hp : f32Magnitude p = 0) (hrate : rate ≠ 0#32) :
    f32Magnitude (f32Div p (rateF32 rate)) = 0 := by
  have hpos : 0 < f32Magnitude (rateF32 rate) := f32Unit_pos.trans_le (rateF32_ge_unit hrate)
  rw [f32Div_round p _ (f32IsFinite_of_magnitude_eq_zero hp) (rateF32_finite rate) hpos.ne', hp, zero_mul]
  exact f32Magnitude_round_zero _ hpos

/-- The increment is finite exactly where the product with L is. -/
theorem increment_finite_iff {f : F32} {len : BitVec 16} {rate : BitVec 32}
    (hp : f32IsNaN (f32Mul f (lengthF32 len)) = false) (hrate : rate ≠ 0#32) :
    f32IsFinite (increment f len rate) = f32IsFinite (f32Mul f (lengthF32 len)) :=
  (f32Div_rate hp hrate).2.2

/-- Settles O34: the product's results, then the quotient's. -/
theorem incrementFormulaAndItsResults : Obligations.IncrementFormulaAndItsResults := by
  intro f len rate hlen hrate
  refine ⟨rfl, lengthF32_scaled len, fun hf => ?_, fun _ hp => ?_, fun hzero => ?_⟩
  · obtain ⟨hp, hpsign⟩ := f32Mul_length hf hlen
    obtain ⟨hq, hqsign, -⟩ := f32Div_rate hp hrate
    exact ⟨hq, hqsign.trans hpsign⟩
  · exact (increment_finite_iff (f32IsNaN_of_finite _ hp) hrate).trans hp
  · exact f32Div_rate_zero (f32Mul_zero_left hzero (lengthF32_finite len)) hrate

/-! ### The branches of SET_FREQ in ACTIVE (R101, R142) -/

theorem exec_setFreq_of_finite {s : State} {f : F32} (hmode : s.mode = .active) (hf : f32IsFinite f = true)
    (hq : f32IsFinite (increment f s.tableLen s.sampleRate) = true) :
    exec (.setFreq f) s = .next { s with
      incr := increment f s.tableLen s.sampleRate, response := some ⟨.ok, 0#32⟩ } := by
  simp [exec, execSetFreq, hmode, hf, hq, respond_eq, State.setIncr]

theorem exec_setFreq_of_nonfinite {s : State} {f : F32} (hmode : s.mode = .active)
    (h : f32IsFinite f = false ∨ f32IsFinite (increment f s.tableLen s.sampleRate) = false) :
    exec (.setFreq f) s = .next { s with response := some ⟨.errNonfinite, 0#32⟩ } := by
  obtain hf | hq := h
  · simp [exec, execSetFreq, hmode, hf, raise_eq]
  · simp [exec, execSetFreq, hmode, hq, raise_eq]

/-- Settles O32: the quotient of a finite product by a rate is finite, so SET_FREQ passes its three checks. -/
theorem setFreqWritesTheIncrement : Obligations.SetFreqWritesTheIncrement := by
  intro s f hmode hrate hf hp
  have hq := (increment_finite_iff (f32IsNaN_of_finite _ hp) hrate).trans hp
  exact exec_setFreq_of_finite hmode hf hq

/-- A product of finite data is not NaN. -/
theorem f32Mul_not_nan {x y : F32} (hx : f32IsFinite x = true) (hy : f32IsFinite y = true) :
    f32IsNaN (f32Mul x y) = false := by
  rw [f32Mul_round x y hx hy]
  exact f32Round_not_nan _ _ _

/-- Settles O33: the operand's check refuses the first, and the increment of an overflowing product is infinite. -/
theorem setFreqRefusals : Obligations.SetFreqRefusals := by
  intro s f hmode hrate h
  refine exec_setFreq_of_nonfinite hmode ?_
  cases hf : f32IsFinite f with
  | false => exact .inl rfl
  | true =>
    have hp := h.resolve_left (by simp [hf])
    exact .inr ((increment_finite_iff (f32Mul_not_nan hf (lengthF32_finite s.tableLen)) hrate).trans hp)

/-! ### The interpolator at an integer phase (R111) -/

theorem f32One_mul {t : F32} (ht : f32IsFinite t = true) : f32Mul f32One t = t := by
  have hexact := (roundMagnitude_exact (f32Bits t) f32Unit f32Unit_pos ((f32IsFinite_iff t).mp ht)).2
  rw [f32Mul_round f32One t f32One_finite ht, f32One_magnitude]
  refine f32_eq_of_magnitude _ _ ?_ ?_
  · rw [f32Sign_round, f32SignXor, show f32Sign f32One = false by decide, Bool.false_bne]
  · rwa [f32Magnitude_round, f32Magnitude_eq t]

/-- At a phase equal to k in value, `-0.0` too, the weights are a zero and 1.0. -/
theorem weights_of_integer_phase {x : F32} {k : Nat} (hx : f32IsFinite x = true)
    (hk : f32Scaled x = ((k * f32Unit : Nat) : Int)) (hle : k ≤ 65535) :
    f32Magnitude (f32Sub x (toF32 k)) = 0 ∧ f32Sub f32One (f32Sub x (toF32 k)) = f32One := by
  have hw1 : f32Magnitude (f32Sub x (toF32 k)) = 0 := by
    have hsum : f32Scaled x + f32Scaled (f32Neg (toF32 k)) = 0 := by
      rw [f32Scaled_neg, toF32_scaled (by omega), hk, add_neg_cancel]
    have hneg : f32IsFinite (f32Neg (toF32 k)) = true := by rw [f32IsFinite_neg, toF32_finite k (by omega)]
    obtain ⟨hzfin, -, hzmag⟩ := f32_zero
    rw [← f32Scaled_eq_zero_iff, f32Sub, (f32Add_exact hx hneg hzfin (by rw [hzmag, hsum]; rfl)).2, hsum]
  refine ⟨hw1, ?_⟩
  generalize f32Sub x (toF32 k) = w1 at hw1
  have hzero : f32Magnitude (f32Neg w1) = 0 := by rw [f32Magnitude_eq, f32Bits_neg, ← f32Magnitude_eq, hw1]
  exact f32_eq_of_scaled_ne_zero (by decide) (f32Add_zero_right f32One_finite hzero).2

/-- At a phase equal to k in value the blend is finite and equals entry k in value (R111 items 1 and 5). -/
theorem blend_of_integer_phase {x t0 t1 : F32} {k : Nat} (hx : f32IsFinite x = true)
    (hk : f32Scaled x = ((k * f32Unit : Nat) : Int)) (hle : k ≤ 65535) (h0 : f32IsFinite t0 = true)
    (h1 : f32IsFinite t1 = true) :
    f32IsFinite (blend x k t0 t1) = true ∧ f32Scaled (blend x k t0 t1) = f32Scaled t0 := by
  obtain ⟨hw1, hw0⟩ := weights_of_integer_phase hx hk hle
  have hblend : blend x k t0 t1 = f32Add t0 (f32Mul (f32Sub x (toF32 k)) t1) := by
    rw [blend, hw0, f32One_mul h0]
  rw [hblend]
  exact f32Add_zero_right h0 (f32Mul_zero_left hw1 h1)

/-- At either zero the blend is finite and equals entry 0 in value. -/
theorem blend_of_zero_phase {x t0 t1 : F32} (hx : f32IsFinite x = true) (hzero : f32Scaled x = 0)
    (h0 : f32IsFinite t0 = true) (h1 : f32IsFinite t1 = true) :
    f32IsFinite (blend x 0 t0 t1) = true ∧ f32Scaled (blend x 0 t0 t1) = f32Scaled t0 :=
  blend_of_integer_phase hx (by rw [hzero, zero_mul, Nat.cast_zero]) (by omega) h0 h1

/-! ### A pull at a phase that is not negative (R120) -/

section
variable {s : State} (hmode : s.mode = .active) (hfin : f32IsFinite s.index = true) (h0 : 0 ≤ f32Scaled s.index)
include hmode hfin h0

/-- The pull with its index and both entries known. -/
theorem exec_getSample_of_nonneg {k : Nat} {t0 t1 : F32} (hk : lerpIndex s.index s.tableLen = some k)
    (hread0 : Memory.read s.table k = some t0) (hread1 : Memory.read s.table ((k + 1) % s.tableLen.toNat) = some t1) :
    exec .getSample s = .next { s with
      index := advancedIndex s, response := some ⟨.ok, blend s.index k t0 t1⟩ } := by
  have hneg : f32Lt s.index 0x00000000#32 = false := by simp [f32Lt_zero s.index hfin, h0]
  exact exec_getSample_of_lerp_ok hmode hneg (lerp_eq s s.index t0 t1 k hk hread0 hread1)

/-- Everything such a pull can answer. -/
theorem exec_getSample_next_of_nonneg {t : State} (h : exec .getSample s = .next t) :
    ∃ k t0 t1, lerpIndex s.index s.tableLen = some k ∧ Memory.read s.table k = some t0 ∧
      Memory.read s.table ((k + 1) % s.tableLen.toNat) = some t1 ∧
      t = { s with index := advancedIndex s, response := some ⟨.ok, blend s.index k t0 t1⟩ } := by
  obtain ⟨hmode', -⟩ | ⟨-, hneg, -⟩ | ⟨-, -, y, hlerp, rfl⟩ := execGetSample_next s t h
  · exact absurd hmode hmode'
  · simp [f32Lt_zero s.index hfin, not_lt.mpr h0] at hneg
  · obtain ⟨k, t0, t1, hk, hread0, hread1, rfl⟩ := lerp_ok s s.index y hlerp
    exact ⟨k, t0, t1, hk, hread0, hread1, rfl⟩

end

/-! ### A zero increment (R105 item 1) -/

/-- With a zero increment the advance leaves a phase that is not negative: in value, and in bits where its sign bit is
clear. -/
theorem advancedIndex_of_zero_incr {s : State} (h : ActiveInv s) (hincr : f32Magnitude s.incr = 0)
    (h0 : 0 ≤ f32Scaled s.index) :
    f32Scaled (advancedIndex s) = f32Scaled s.index ∧ (f32Sign s.index = false → advancedIndex s = s.index) := by
  obtain ⟨hfin, hval⟩ := f32Add_zero_right h.indexFinite hincr
  have hlt : f32Magnitude (f32Add s.index s.incr) < s.tableLen.toNat * f32Unit := by
    rw [← f32Scaled_natAbs, hval, f32Scaled_natAbs]
    exact h.indexBound
  obtain ⟨hwrap, hbits⟩ := wrapPhase_of_in_range hfin h.lenPos s.params.wrapMode (hval.symm ▸ h0) hlt
  refine ⟨hwrap.trans hval, fun hsign => ?_⟩
  have hclear : f32Sign (f32Add s.index s.incr) = false := by
    have hzero := (f32Scaled_eq_zero_iff s.incr).mpr hincr
    exact f32Sign_add_of_nonneg h.indexFinite h.incrFinite hsign (by rwa [hzero, add_zero])
  exact (hbits hclear).trans (f32_eq_of_scaled (hclear.trans hsign.symm) hval)

/-- The interpolator's index is a function of the phase's value. -/
theorem lerpIndex_congr {x x' : F32} (len : BitVec 16) (hfin : f32IsFinite x' = f32IsFinite x)
    (hval : f32Scaled x' = f32Scaled x) : lerpIndex x' len = lerpIndex x len := by
  rw [lerpIndex, lerpIndex, f32Floor, f32Floor, hfin, hval]

/-- A datum that is not negative and has its sign bit set is `-0.0`. -/
theorem f32Scaled_eq_zero_of_sign {x : F32} (h0 : 0 ≤ f32Scaled x) (hsign : f32Sign x = true) : f32Scaled x = 0 := by
  by_contra hne
  rw [f32Sign_eq_scaled_neg x hne, decide_eq_true_eq] at hsign
  omega

/-- Settles O37: the second pull finds the phase in the same place, so it blends the same two entries. -/
theorem zeroIncrementFreezesThePhase : Obligations.ZeroIncrementFreezesThePhase := by
  intro s t hs hmode hincr h0 hexec
  have hactive := hs.active hmode
  have ht : Inv t := effect_keeps_inv hs (exec_effect hexec)
  obtain ⟨k, t0, t1, hk, hread0, hread1, rfl⟩ := exec_getSample_next_of_nonneg hmode hactive.indexFinite h0 hexec
  obtain ⟨hval, hbits⟩ := advancedIndex_of_zero_incr hactive hincr h0
  generalize advancedIndex s = x at *
  have hactive' := ht.active hmode
  have hx : f32IsFinite x = true := hactive'.indexFinite
  have hx0 : 0 ≤ f32Scaled x := hval.symm ▸ h0
  have hk' := (lerpIndex_congr s.tableLen (hx.trans hactive.indexFinite.symm) hval).trans hk
  obtain ⟨hval', hbits'⟩ := advancedIndex_of_zero_incr hactive' hincr hx0
  have hnext := exec_getSample_of_nonneg (s := { s with index := x, response := some ⟨.ok, blend s.index k t0 t1⟩ })
    hmode hx hx0 hk' hread0 hread1
  refine ⟨hval, _, _, _, hnext, hval'.trans hval, rfl, rfl, fun hsign => ?_, fun hsign => ?_⟩
  · obtain rfl := hbits hsign
    exact ⟨rfl, hbits' hsign, rfl⟩
  · have hzero : f32Scaled s.index = 0 := f32Scaled_eq_zero_of_sign h0 hsign
    have ht0 := hs.table.finite _ (Memory.mem_of_read _ _ _ hread0)
    have ht1 := hs.table.finite _ (Memory.mem_of_read _ _ _ hread1)
    obtain ⟨-, -, hfloor, -⟩ := lerpIndex_some s.index s.tableLen k hk
    obtain rfl : k = 0 := by simpa [f32Floor, hzero, eq_comm] using hfloor
    obtain ⟨hyfin, hyval⟩ := blend_of_zero_phase hactive.indexFinite hzero ht0 ht1
    obtain ⟨hzfin, hzval⟩ := blend_of_zero_phase hx (hval.trans hzero) ht0 ht1
    exact ⟨hyfin, hzfin, hzval.trans hyval.symm⟩

/-! ### Integer phases and increments (R105 item 4) -/

/-- An integer rounds to an integer: below 2^24 nothing is lost, and from there a unit in the last place is an
integer. -/
theorem unit_dvd_bitsMagnitude_round {n : Nat} (h : roundMagnitude (n * f32Unit) 1 < infinityBits) :
    f32Unit ∣ bitsMagnitude (roundMagnitude (n * f32Unit) 1) := by
  rw [bitsMagnitude_round _ _ one_pos h, significand]
  generalize quantumExponent (n * f32Unit) 1 = q
  obtain hq | hq := Nat.le_total 149 q
  · exact Dvd.dvd.mul_left (pow_dvd_pow 2 hq) _
  · have hexact : n * f32Unit = n * 2 ^ (149 - q) * (1 * 2 ^ q) := by
      rw [one_mul, mul_assoc, ← pow_add, Nat.sub_add_cancel hq, f32Unit]
    rw [hexact, roundHalfEven_mul _ _ (by positivity), mul_assoc, ← pow_add, Nat.sub_add_cancel hq]
    exact Dvd.intro_left n rfl

/-- The sum of two integers is an integer, and the exact one up to 2^24. -/
theorem f32Add_integer {x y : F32} {a b : Int} (hx : f32IsFinite x = true) (hy : f32IsFinite y = true)
    (ha : f32Scaled x = a * (f32Unit : Int)) (hb : f32Scaled y = b * (f32Unit : Int))
    (hfin : f32IsFinite (f32Add x y) = true) :
    ∃ c : Int, f32Scaled (f32Add x y) = c * (f32Unit : Int) ∧ ((a + b).natAbs ≤ 2 ^ 24 → c = a + b) := by
  have hsum : f32Scaled x + f32Scaled y = (a + b) * (f32Unit : Int) := by rw [ha, hb, add_mul]
  have habs : (f32Scaled x + f32Scaled y).natAbs = (a + b).natAbs * f32Unit := by
    rw [hsum, Int.natAbs_mul, Int.natAbs_natCast]
  by_cases hle : (a + b).natAbs ≤ 2 ^ 24
  · have hmag : f32Magnitude (toF32 (a + b).natAbs) = (f32Scaled x + f32Scaled y).natAbs := by
      rw [toF32_magnitude _ hle, habs]
    exact ⟨a + b, (f32Add_exact hx hy (toF32_finite _ (by omega)) hmag).2.trans hsum, fun _ => rfl⟩
  · obtain ⟨neg, hround, -, -⟩ := f32Add_round x y hx hy
    rw [hround, habs] at hfin ⊢
    rw [f32IsFinite_iff, f32Bits_round] at hfin
    have hdvd : (f32Unit : Int) ∣ f32Scaled (f32Round neg ((a + b).natAbs * f32Unit) 1) := by
      rw [f32Scaled_round]
      exact Dvd.dvd.mul_left (by exact_mod_cast unit_dvd_bitsMagnitude_round hfin) _
    obtain ⟨c, hc⟩ := hdvd
    exact ⟨c, by rw [hc, mul_comm], fun h => absurd h hle⟩

/-- The truncated remainder differs from its dividend by a multiple of the divisor. -/
theorem tmod_emod_self (a l : Int) : a.tmod l % l = a % l := by
  conv_rhs => rw [← Int.tmod_add_mul_tdiv a l, Int.add_mul_emod_self_left]

section
variable {x : F32} {len : BitVec 16} {a : Int} (hx : f32IsFinite x = true) (hlen : len ≠ 0#16)
  (ha : f32Scaled x = a * (f32Unit : Int))
include hx hlen ha

/-- The reference wrap of an integer is its truncated remainder by L. -/
theorem wrapF_integer : f32Scaled (wrapF x len) = a.tmod len.toNat * (f32Unit : Int) := by
  have hu : (0 : Int) < f32Unit := by exact_mod_cast f32Unit_pos
  have hfmod := (fmodIsExact x (lengthF32 len) hx (lengthF32_finite len) (lengthF32_magnitude_ne_zero len hlen)).2.1
  rw [← Int.tmod_def, ha, lengthF32_scaled, Nat.cast_mul] at hfmod
  rw [wrapF, hfmod, mul_comm a, mul_comm (len.toNat : Int), Int.mul_tmod_mul_of_pos _ _ hu, mul_comm]

/-- The Euclidean wrap of an integer is its remainder in [0, L): L added to a negative remainder is exact. -/
theorem wrapE_integer : f32Scaled (wrapE x len) = a % len.toNat * (f32Unit : Int) := by
  have hL : (0 : Int) < len.toNat := by exact_mod_cast len_pos_of_ne len hlen
  have hlt := Int.tmod_lt_of_pos a hL
  have hgt := Int.lt_tmod_of_pos a hL
  have hmod := tmod_emod_self a len.toNat
  have hr := wrapF_integer hx hlen ha
  obtain ⟨hfin, -, -⟩ := wrapF_range x len hx hlen
  generalize a.tmod len.toNat = r at *
  obtain h0 | hneg := le_or_gt 0 r
  · have hr0 : 0 ≤ f32Scaled (wrapF x len) := by rw [hr]; positivity
    rw [wrapE_of_remainder_nonneg hx hlen hr0, f32Scaled_positiveZero hfin, hr, ← hmod, Int.emod_eq_of_lt h0 hlt]
  · have hr0 : f32Scaled (wrapF x len) < 0 := by
      rw [hr]
      exact mul_neg_of_neg_of_pos hneg (by exact_mod_cast f32Unit_pos)
    have hfin' := (add_length_of_remainder_neg hx hlen hr0).1
    obtain ⟨c, hc, hexact⟩ := f32Add_integer hfin (lengthF32_finite len) hr
      (by rw [lengthF32_scaled, Nat.cast_mul]) hfin'
    rw [hexact (by have := len.isLt; omega)] at hc
    rw [wrapE_of_remainder_neg hx hlen hr0, wrapF_integer hfin' hlen hc, Int.tmod_eq_emod_of_nonneg (by omega),
      Int.add_emod_right, hmod]

/-- Either wrap of an integer is an integer in (-L, L) (R103, R104). -/
theorem wrapPhase_integer (wm : WrapMode) :
    ∃ m : Int, f32Scaled (wrapPhase wm x len) = m * (f32Unit : Int) ∧ m.natAbs < len.toNat ∧
      (wm = .euclidean ∨ 0 ≤ a → m = a % len.toNat) ∧ (wm = .fmod → m = a.tmod len.toNat) := by
  obtain ⟨-, hlt, -⟩ := wrapPhase_range wm x len hx hlen
  have hbound (m : Int) (hm : f32Scaled (wrapPhase wm x len) = m * (f32Unit : Int)) : m.natAbs < len.toNat := by
    rw [← f32Scaled_natAbs, hm, Int.natAbs_mul, Int.natAbs_natCast] at hlt
    exact Nat.lt_of_mul_lt_mul_right hlt
  cases wm with
  | euclidean =>
    have hm := wrapE_integer hx hlen ha
    exact ⟨_, hm, hbound _ hm, fun _ => rfl, fun h => by cases h⟩
  | fmod =>
    have hm := wrapF_integer hx hlen ha
    exact ⟨_, hm, hbound _ hm, fun h => Int.tmod_eq_emod_of_nonneg (h.resolve_left (by simp)), fun _ => rfl⟩

end

theorem eq_toF32_of_scaled {x : F32} {n : Nat} (hn : n ≤ 2 ^ 24) (hsign : f32Sign x = false)
    (hx : f32Scaled x = ((n * f32Unit : Nat) : Int)) : x = toF32 n :=
  f32_eq_of_scaled (hsign.trans (toF32_sign n).symm) (hx.trans (toF32_scaled hn).symm)

/-- At an integer phase k below L the interpolator's index is k. -/
theorem lerpIndex_of_integer_phase {x : F32} {len : BitVec 16} {k : Nat} (hx : f32IsFinite x = true)
    (hval : f32Scaled x = ((k * f32Unit : Nat) : Int)) (hk : k < len.toNat) : lerpIndex x len = some k := by
  have hnext : k * f32Unit < (k + 1) * f32Unit := Nat.mul_lt_mul_of_pos_right (Nat.lt_succ_self k) f32Unit_pos
  exact lerpIndex_eq x len k hx hval.ge (by rw [hval]; exact_mod_cast hnext) hk

/-- A wrapped phase has its sign bit clear under EUCLIDEAN, and under FMOD where the sum's is. -/
theorem f32Sign_wrapPhase {wm : WrapMode} {x : F32} {len : BitVec 16} (hx : f32IsFinite x = true) (hlen : len ≠ 0#16)
    (h : wm = .euclidean ∨ f32Sign x = false) : f32Sign (wrapPhase wm x len) = false := by
  cases wm with
  | euclidean => exact (wrapE_range x len hx hlen).2.1
  | fmod => exact (wrapF_range x len hx hlen).2.1.trans (h.resolve_left (by simp))

/-- Settles O38: the integer phase's blend is entry k, the sum is an integer, and either wrap of an integer is its
remainder. -/
theorem integerIncrementReadsExactEntries : Obligations.IntegerIncrementReadsExactEntries := by
  intro s k j t0 t1 hmode hk hfin hval hincr hj hread0 hread1 ht0 ht1
  have hlen : s.tableLen ≠ 0#16 := fun h => by simp [h] at hk
  have hL : s.tableLen.toNat ≤ 65535 := by have := s.tableLen.isLt; omega
  have hindex := lerpIndex_of_integer_phase hfin hval hk
  have hexec := exec_getSample_of_nonneg hmode hfin (hval ▸ Int.natCast_nonneg _) hindex hread0 hread1
  obtain ⟨hyfin, hyval⟩ := blend_of_integer_phase hfin hval (by omega) ht0 ht1
  have hsum := f32Add_finite_of_bound s.index s.incr _ hfin hincr (f32Magnitude_lt_of_scaled hval hk) hL
  obtain ⟨c, hc, hexact⟩ := f32Add_integer hfin hincr (by rw [hval, Nat.cast_mul]) hj hsum
  obtain ⟨m, hm, hmlt, hmod, hfmod⟩ := wrapPhase_integer hsum hlen hc s.params.wrapMode
  refine ⟨_, _, m, hexec, hyfin, hyval, (wrapPhase_range _ _ _ hsum hlen).1, hm, hmlt, fun hle => ?_⟩
  obtain rfl := hexact hle
  refine ⟨fun h => ?_, hfmod⟩
  obtain rfl := hmod (h.imp_right And.right)
  have hsign : f32Sign (advancedIndex s) = false := by
    refine f32Sign_wrapPhase hsum hlen (h.imp_right fun ⟨hs, h0⟩ => f32Sign_add_of_nonneg hfin hincr hs ?_)
    rw [hval, hj, Nat.cast_mul, ← add_mul]
    positivity
  have hL0 : (0 : Int) < s.tableLen.toNat := by omega
  have hm0 := Int.emod_nonneg (k + j) hL0.ne'
  refine eq_toF32_of_scaled (by omega) hsign (hm.trans ?_)
  rw [Nat.cast_mul, Int.toNat_of_nonneg hm0]

end Sys2Proof.Proofs
end

section
/-! Proofs of the statements about the linear interpolator (R110, R111, R113) and the pull that applies it (R120). -/

namespace Sys2Proof.Proofs

open Sys2Proof Sys2Proof.Machine

/-! ### How far a rounding moves a magnitude (R8) -/

/-- A magnitude of at most `e + 24` bits moves by less than `2^e`: cut to a multiple of `2^e` it is representable. -/
theorem abs_sub_round_lt {n e : Nat} (hn : n < 2 ^ 24 * 2 ^ e) (hfin : n < overflowBound) :
    |(n : Int) - bitsMagnitude (roundMagnitude n 1)| < 2 ^ e := by
  have hpos : 0 < 2 ^ e := by positivity
  have hcut := Nat.div_add_mod' n (2 ^ e)
  have hmod : ((n % 2 ^ e : Nat) : Int) < 2 ^ e := by exact_mod_cast Nat.mod_lt n hpos
  obtain ⟨p, -, hp⟩ := exists_bits_of_form e (n / 2 ^ e) ((Nat.div_lt_iff_lt_mul hpos).mpr hn) (by omega)
  have hnear := (roundMagnitude_nearest n 1 one_pos ((roundMagnitude_lt n 1 one_pos).mpr (by omega)) p).1
  have hdist : (n : Int) - bitsMagnitude p = (n % 2 ^ e : Nat) := by omega
  rw [Nat.cast_one, one_mul, one_mul, hdist, abs_of_nonneg (Int.natCast_nonneg _)] at hnear
  exact hnear.trans_lt hmod

/-- What passes 1.0 by less than 2^-24 rounds to at most 1.0: the next datum is 2^-23 further. -/
theorem round_le_unit {n : Nat} (hn : n < f32Unit + 2 ^ 125) :
    roundMagnitude n 1 < infinityBits ∧ bitsMagnitude (roundMagnitude n 1) ≤ f32Unit := by
  have hone : bitsMagnitude 0x3F800000 = f32Unit := by decide
  have hnext : bitsMagnitude 0x3F800001 = f32Unit + 2 ^ 126 :=
    (bitsMagnitude_significand 126 (2 ^ 23 + 1) (by norm_num) (by norm_num)).trans (by norm_num [f32Unit])
  have hfin : roundMagnitude n 1 < infinityBits := by
    have hbound : f32Unit + 2 ^ 125 < overflowBound := by unfold f32Unit overflowBound; norm_num
    exact (roundMagnitude_lt n 1 one_pos).mpr (by rw [one_mul]; exact hn.trans hbound)
  refine ⟨hfin, ?_⟩
  obtain hle | hgt := Nat.le_total n f32Unit
  · rw [← hone] at hle ⊢
    exact (round_le_of_le n 1 0x3F800000 one_pos (by decide) (by omega)).2
  have hnear := (roundMagnitude_nearest n 1 one_pos hfin 0x3F800000).1
  rw [hone, Nat.cast_one, one_mul, one_mul, abs_of_nonneg (by omega : (0 : Int) ≤ n - f32Unit), abs_le] at hnear
  have hbits : roundMagnitude n 1 < 0x3F800001 := by
    rw [← bitsMagnitude_lt_iff, hnext]
    omega
  by_contra hc
  rw [not_le, ← hone, bitsMagnitude_lt_iff] at hc
  omega

/-- A sum of finite data whose magnitudes together pass 1.0 by less than 2^-24 is finite and in [-1.0, 1.0]. -/
theorem f32Add_le_unit {x y : F32} (hx : f32IsFinite x = true) (hy : f32IsFinite y = true)
    (h : f32Magnitude x + f32Magnitude y < f32Unit + 2 ^ 125) :
    f32IsFinite (f32Add x y) = true ∧ f32Magnitude (f32Add x y) ≤ f32Unit := by
  obtain ⟨neg, hround, -, -⟩ := f32Add_round x y hx hy
  rw [hround, f32IsFinite_iff, f32Bits_round, f32Magnitude_round]
  have habs := Int.natAbs_add_le (f32Scaled x) (f32Scaled y)
  rw [f32Scaled_natAbs, f32Scaled_natAbs] at habs
  exact round_le_unit (by omega)

/-- A sum of finite data is not NaN. -/
theorem f32Add_not_nan {x y : F32} (hx : f32IsFinite x = true) (hy : f32IsFinite y = true) :
    f32IsNaN (f32Add x y) = false := by
  obtain ⟨neg, hround, -, -⟩ := f32Add_round x y hx hy
  rw [hround]
  exact f32Round_not_nan _ _ _

/-! ### The weights (R110) -/

/-- The weight `w0 = 1.0 ⊖ w` beside a weight `w` in [0, 1): finite, at most 1.0, and rounded up by less than 2^-24. -/
theorem other_weight_bound {w : F32} (hw : f32IsFinite w = true) (h0 : 0 ≤ f32Scaled w) (hlt : f32Magnitude w < f32Unit) :
    f32IsFinite (f32Sub f32One w) = true ∧ f32Magnitude (f32Sub f32One w) ≤ f32Unit ∧
      f32Magnitude (f32Sub f32One w) + f32Magnitude w < f32Unit + 2 ^ 125 := by
  obtain ⟨neg, hround, -, -⟩ := f32Add_round f32One (f32Neg w) f32One_finite (by rw [f32IsFinite_neg, hw])
  have hexact : (f32Scaled f32One + f32Scaled (f32Neg w)).natAbs = f32Unit - f32Magnitude w := by
    have hmag := f32Scaled_natAbs w
    rw [f32One_scaled, f32Scaled_neg]
    omega
  rw [f32Sub, hround, hexact, f32IsFinite_iff, f32Bits_round, f32Magnitude_round]
  obtain ⟨hfin, hle⟩ := round_le_unit (n := f32Unit - f32Magnitude w) (by omega)
  refine ⟨hfin, hle, ?_⟩
  obtain hzero | hpos := Nat.eq_zero_or_pos (f32Magnitude w)
  · omega
  · have hbits : f32Unit - f32Magnitude w < 2 ^ 24 * 2 ^ 125 := by
      have hunit : f32Unit = 2 ^ 24 * 2 ^ 125 := by rw [f32Unit, ← pow_add]
      omega
    have hmove := abs_sub_round_lt hbits (by simpa using (roundMagnitude_lt _ 1 one_pos).mp hfin)
    rw [abs_lt] at hmove
    omega

section
variable {x : F32} {k : Nat} (hx : f32IsFinite x = true) (hlo : ((k * f32Unit : Nat) : Int) ≤ f32Scaled x)
  (hhi : f32Scaled x < (((k + 1) * f32Unit : Nat) : Int)) (hk : k + 1 ≤ 65535)
include hx hlo hhi hk

/-- The weight `w1 = x ⊖ k` is exact: it has the magnitude of the fractional part, the remainder of x by 1.0. -/
theorem weight_exact :
    f32IsFinite (f32Sub x (toF32 k)) = true ∧
      f32Scaled (f32Sub x (toF32 k)) = f32Scaled x - ((k * f32Unit : Nat) : Int) := by
  obtain ⟨hfrac, -, hmag⟩ := f32Fmod_exact x f32One hx f32One_finite (by rw [f32One_magnitude]; exact f32Unit_pos.ne')
  have hneg : f32IsFinite (f32Neg (toF32 k)) = true := by rw [f32IsFinite_neg, toF32_finite k (by omega)]
  have hsum : f32Scaled x + f32Scaled (f32Neg (toF32 k)) = f32Scaled x - ((k * f32Unit : Nat) : Int) := by
    rw [f32Scaled_neg, toF32_scaled (by omega), ← sub_eq_add_neg]
  have hmod : f32Magnitude x % f32Unit = f32Magnitude x - k * f32Unit := by
    have hmag := f32Scaled_natAbs x
    rw [add_mul, one_mul] at hhi
    exact ((Nat.div_mod_unique (d := k) f32Unit_pos).mpr ⟨by rw [mul_comm f32Unit]; omega, by omega⟩).2
  rw [f32Sub, ← hsum]
  refine f32Add_exact hx hneg hfrac ?_
  rw [hmag, f32One_magnitude, hmod, hsum, ← f32Scaled_natAbs]
  omega

/-- Both weights are finite and in [-1.0, 1.0], and together they pass 1.0 by less than 2^-24. -/
theorem weights_bound :
    f32IsFinite (f32Sub f32One (f32Sub x (toF32 k))) = true ∧
      f32Magnitude (f32Sub f32One (f32Sub x (toF32 k))) ≤ f32Unit ∧ f32Magnitude (f32Sub x (toF32 k)) ≤ f32Unit ∧
      f32Magnitude (f32Sub f32One (f32Sub x (toF32 k))) + f32Magnitude (f32Sub x (toF32 k)) < f32Unit + 2 ^ 125 := by
  obtain ⟨hfin, hval⟩ := weight_exact hx hlo hhi hk
  have hmag := f32Scaled_natAbs (f32Sub x (toF32 k))
  rw [add_mul, one_mul] at hhi
  have hlt : f32Magnitude (f32Sub x (toF32 k)) < f32Unit := by omega
  obtain ⟨hfin0, hle0, hsum⟩ := other_weight_bound hfin (by omega) hlt
  exact ⟨hfin0, hle0, hlt.le, hsum⟩

end

/-! ### The blend (R110, R113) -/

/-- Settles O39: the weights are at most 1.0, so each product is no larger than its entry. -/
theorem blendWeightIsExactAndResultNeverNaN : Obligations.BlendWeightIsExactAndResultNeverNaN := by
  intro x k t0 t1 hx hlo hhi hk ht0 ht1
  obtain ⟨hfin1, hexact⟩ := weight_exact hx hlo hhi hk
  obtain ⟨hfin0, hle0, hle1, -⟩ := weights_bound hx hlo hhi hk
  have hp0 := (f32Mul_le_right _ t0 hfin0 ht0 hle0).1
  have hp1 := (f32Mul_le_right _ t1 hfin1 ht1 hle1).1
  exact ⟨hexact, hp0, hp1, f32Add_not_nan hp0 hp1⟩

/-- An index of the interpolator puts the phase in its interval. -/
theorem phase_interval_of_lerpIndex {x : F32} {len : BitVec 16} {k : Nat} (h : lerpIndex x len = some k) :
    ((k * f32Unit : Nat) : Int) ≤ f32Scaled x ∧ f32Scaled x < (((k + 1) * f32Unit : Nat) : Int) := by
  obtain ⟨-, -, hfloor, -⟩ := lerpIndex_some x len k h
  have hu : (0 : Int) < f32Unit := by exact_mod_cast f32Unit_pos
  push_cast
  exact ⟨(Int.le_ediv_iff_mul_le hu).mp hfloor.ge, (Int.ediv_lt_iff_lt_mul hu).mp (by rw [← f32Floor]; omega)⟩

/-- Settles O41: against entries of at most 1.0 each product is no larger than its weight, and the weights together
are too close to 1.0 for their sum to round past it. -/
theorem lerpStaysInNominalRange : Obligations.LerpStaysInNominalRange := by
  intro s x y hentries hlerp
  obtain ⟨k, t0, t1, hindex, hread0, hread1, rfl⟩ := lerp_ok s x y hlerp
  obtain ⟨hx, -, -, hlt⟩ := lerpIndex_some x s.tableLen k hindex
  obtain ⟨hlo, hhi⟩ := phase_interval_of_lerpIndex hindex
  obtain ⟨ht0, hle0⟩ := hentries k t0 hlt hread0
  obtain ⟨ht1, hle1⟩ := hentries _ t1 (Nat.mod_lt _ (by omega)) hread1
  have hk : k + 1 ≤ 65535 := by have := s.tableLen.isLt; omega
  obtain ⟨hw1, -⟩ := weight_exact hx hlo hhi hk
  obtain ⟨hw0, -, -, hsum⟩ := weights_bound hx hlo hhi hk
  obtain ⟨hp0, hple0⟩ := f32Mul_le_left _ t0 hw0 ht0 hle0
  obtain ⟨hp1, hple1⟩ := f32Mul_le_left _ t1 hw1 ht1 hle1
  exact f32Add_le_unit hp0 hp1 (by omega)

/-! ### The exact lookup (R111 items 1 and 5) -/

/-- Adding a zero keeps the bits, but `-0.0` and a zero with its sign bit clear give `+0.0` (R8). -/
theorem f32Add_zero_bits {t z : F32} (ht : f32IsFinite t = true) (hz : f32Magnitude z = 0) :
    f32Add t z = if t = 0x80000000#32 ∧ f32Sign z = false then 0x00000000#32 else t := by
  obtain ⟨-, hval⟩ := f32Add_zero_right ht hz
  have hsign (h0 : f32Scaled t = 0) : f32Sign (f32Add t z) = (f32Sign t && f32Sign z) := by
    simp [f32Sign_add ht (f32IsFinite_of_magnitude_eq_zero hz), (f32Scaled_eq_zero_iff z).mpr hz, h0]
  split
  next h =>
    obtain ⟨rfl, hclear⟩ := h
    have hzero : f32Scaled 0x80000000#32 = 0 := by decide
    exact f32_eq_of_scaled (by rw [hsign hzero, hclear, Bool.and_false]; decide) (by rw [hval]; decide)
  next h =>
    by_cases h0 : f32Scaled t = 0
    · refine f32_eq_of_scaled ?_ hval
      cases hst : f32Sign t with
      | false => rw [hsign h0, hst, Bool.false_and]
      | true =>
        have hneg : t = 0x80000000#32 := f32_eq_of_scaled (by rw [hst]; decide) (by rw [h0]; decide)
        have hset : f32Sign z = true := by simpa [hneg] using h
        rw [hsign h0, hst, hset, Bool.true_and]
    · exact f32_eq_of_scaled_ne_zero h0 hval

/-- At a phase equal to k in value the blend adds a zero to entry k, whose sign is that of the weight `w1` times the next
entry. -/
theorem blend_bits_of_integer_phase {x t0 t1 : F32} {k : Nat} (hx : f32IsFinite x = true)
    (hval : f32Scaled x = ((k * f32Unit : Nat) : Int)) (hk : k ≤ 65535) (ht0 : f32IsFinite t0 = true)
    (ht1 : f32IsFinite t1 = true) :
    blend x k t0 t1 =
      if t0 = 0x80000000#32 ∧ f32SignXor (f32Sub x (toF32 k)) t1 = false then 0x00000000#32 else t0 := by
  obtain ⟨hw1, hw0⟩ := weights_of_integer_phase hx hval hk
  have hsign : f32Sign (f32Mul (f32Sub x (toF32 k)) t1) = f32SignXor (f32Sub x (toF32 k)) t1 := by
    rw [f32Mul_round _ t1 (f32IsFinite_of_magnitude_eq_zero hw1) ht1, f32Sign_round]
  rw [blend, hw0, f32One_mul ht0, f32Add_zero_bits ht0 (f32Mul_zero_left hw1 ht1), hsign]

/-- Settles O40: the weight `w1` is `+0.0` at the integer phase and `-0.0` at the phase `-0.0`. -/
theorem integerPhaseIsExactLookup : Obligations.IntegerPhaseIsExactLookup := by
  intro k t0 t1 hk ht0 ht1
  have hkfin : f32IsFinite (toF32 k) = true := toF32_finite k (by omega)
  have hkval := toF32_scaled (n := k) (by omega)
  have hposWeight : f32Sub (toF32 k) (toF32 k) = 0x00000000#32 := zeroSumsHaveIeeeSigns.1 _ hkfin
  have hnegWeight : f32Sub 0x80000000#32 (toF32 0) = 0x80000000#32 := by decide
  have hzval : f32Scaled 0x80000000#32 = ((0 * f32Unit : Nat) : Int) := by decide
  refine ⟨?_, (blend_of_integer_phase hkfin hkval hk ht0 ht1).2, ?_,
    (blend_of_integer_phase (by decide) hzval (by omega) ht0 ht1).2⟩
  · rw [blend_bits_of_integer_phase hkfin hkval hk ht0 ht1, hposWeight]
    simp [f32SignXor, show f32Sign 0x00000000#32 = false by decide]
  · rw [blend_bits_of_integer_phase (by decide) hzval (by omega) ht0 ht1, hnegWeight]
    simp [f32SignXor, show f32Sign 0x80000000#32 = true by decide]

/-! ### The pull (R110, R120) -/

/-- Settles O43: the phase's interval gives the index, and the pull at a phase that is not negative answers the blend. -/
theorem getSampleAnswersThenAdvances : Obligations.GetSampleAnswersThenAdvances := by
  intro s k t0 t1 hmode hfin hlo hhi hk hread0 hread1
  have hindex := lerpIndex_eq s.index s.tableLen k hfin hlo hhi hk
  exact exec_getSample_of_nonneg hmode hfin ((Int.natCast_nonneg _).trans hlo) hindex hread0 hread1

end Sys2Proof.Proofs
end

section
/-! Proofs of the statements about the sample source (R120 to R124): the branches of GET_SAMPLE, GET_INFO and PEEK, and
a run of pulls with increment 1.0. -/

namespace Sys2Proof.Proofs

open Sys2Proof Sys2Proof.Machine

/-! ### GET_SAMPLE (R120, R123) -/

/-- Settles O44: a finite negative phase takes the ERR_PHASE branch. -/
theorem negativePhaseAnswersErrPhase : Obligations.NegativePhaseAnswersErrPhase := by
  intro s hmode hfin hneg
  exact exec_getSample_of_negative hmode ((f32Lt_zero s.index hfin).trans (decide_eq_true hneg))

/-- A written entry of a table that meets the invariant is a finite datum (R26, R31). -/
theorem exists_finite_entry_of_written {s : State} (h : TableInv s) {a : Nat} (ha : Memory.written s.table a = true) :
    ∃ v, Memory.read s.table a = some v ∧ f32IsFinite v = true := by
  obtain ⟨v, hv⟩ := Option.isSome_iff_exists.mp ha
  exact ⟨v, hv, h.finite (a, v) (Memory.mem_of_read _ _ _ hv)⟩

/-- Settles O46: R27's bound gives the phase an index below L, both of its entries are finite, and their blend is not
NaN. -/
theorem everyPullAnswersASample : Obligations.EveryPullAnswersASample := by
  intro s hs hmode h0 hloaded
  have hactive := hs.active hmode
  obtain ⟨k, hindex⟩ := lerpIndex_isSome hactive.indexFinite h0 hactive.indexBound
  obtain ⟨-, -, -, hk⟩ := lerpIndex_some s.index s.tableLen k hindex
  obtain ⟨t0, hread0, ht0⟩ := exists_finite_entry_of_written hs.table (hloaded k hk)
  obtain ⟨t1, hread1, ht1⟩ := exists_finite_entry_of_written hs.table (hloaded _ (Nat.mod_lt (k + 1) (by omega)))
  have hexec := exec_getSample_of_nonneg hmode hactive.indexFinite h0 hindex hread0 hread1
  obtain ⟨hlo, hhi⟩ := phase_interval_of_lerpIndex hindex
  have hle : k + 1 ≤ 65535 := by have := s.tableLen.isLt; omega
  obtain ⟨-, -, -, hnan⟩ :=
    blendWeightIsExactAndResultNeverNaN s.index k t0 t1 hactive.indexFinite hlo hhi hle ht0 ht1
  exact ⟨_, _, hexec, rfl, hnan⟩

/-! ### GET_INFO in ACTIVE (R121) -/

theorem exec_getInfo_of_selector {s : State} {sel : Nat} {i : InfoSelector} (hmode : s.mode = .active)
    (hsel : infoSelector sel = some i) :
    exec (.getInfo sel) s = .next { s with response := some ⟨.ok, infoValue s i⟩ } := by
  simp [exec, execGetInfo, hmode, hsel, respond_eq]

theorem exec_getInfo_of_no_selector {s : State} {sel : Nat} (hmode : s.mode = .active)
    (hsel : infoSelector sel = none) :
    exec (.getInfo sel) s = .next { s with response := some ⟨.errRange, 0#32⟩ } := by
  simp [exec, execGetInfo, hmode, hsel, raise_eq]

theorem infoSelector_eq_none {sel : Nat} (h : 4 ≤ sel) : infoSelector sel = none := by
  obtain ⟨n, rfl⟩ := Nat.exists_eq_add_of_le' h
  rfl

/-- Settles O49: selectors 0 to 3 name their value, and none from 4 up does. -/
theorem getInfoAnswersTheMetadata : Obligations.GetInfoAnswersTheMetadata := by
  intro s sel hmode
  refine ⟨?_, ?_, ?_, fun h => exec_getInfo_of_no_selector hmode (infoSelector_eq_none h)⟩
  · rintro rfl
    exact exec_getInfo_of_selector (i := .channels) hmode rfl
  · rintro rfl
    exact exec_getInfo_of_selector (i := .rate) hmode rfl
  · rintro (rfl | rfl)
    · exact exec_getInfo_of_selector (i := .duration) hmode rfl
    · exact exec_getInfo_of_selector (i := .frameLen) hmode rfl

/-! ### PEEK (R122) -/

theorem exec_peek_of_selector {sel : Nat} {p : PeekSelector} (hsel : peekSelector sel = some p) (s : State) :
    exec (.peek sel) s = .next { s with response := some ⟨.ok, peekValue s p⟩ } := by
  simp [exec, execPeek, hsel, respond_eq]

theorem exec_peek_of_no_selector {sel : Nat} (hsel : peekSelector sel = none) (s : State) :
    exec (.peek sel) s = .next { s with response := some ⟨.errRange, 0#32⟩ } := by
  simp [exec, execPeek, hsel, raise_eq]

theorem peekSelector_eq_none {sel : Nat} (h : 5 ≤ sel) : peekSelector sel = none := by
  obtain ⟨n, rfl⟩ := Nat.exists_eq_add_of_le' h
  rfl

/-- Zero extension puts 16 zero bits above the element (R6). -/
theorem zext32_eq_append (x : BitVec 16) : zext32 x = 0#16 ++ x := BitVec.setWidth_eq_append (by decide)

/-- Settles O50: selectors 0 to 4 name their element, and none from 5 up does. -/
theorem peekAnswersTheElement : Obligations.PeekAnswersTheElement := by
  intro s sel
  refine ⟨?_, ?_, ?_, ?_, ?_, fun h => exec_peek_of_no_selector (peekSelector_eq_none h) s⟩
  · rintro rfl
    exact exec_peek_of_selector (p := .index) rfl s
  · rintro rfl
    exact exec_peek_of_selector (p := .incr) rfl s
  · rintro rfl
    exact exec_peek_of_selector (p := .rate) rfl s
  · rintro rfl
    rw [← zext32_eq_append]
    exact exec_peek_of_selector (p := .len) rfl s
  · rintro rfl
    exact exec_peek_of_selector (p := .status) rfl s

/-! ### Pulls with increment 1.0 (R70, R124) -/

/-- ACTIVE at phase k below L with increment 1.0 and every entry below L loaded: what each pull keeps, with the next
phase for k. -/
structure PlaysUnitSteps (s : State) (k : Nat) : Prop where
  mode : s.mode = .active
  phaseLt : k < s.tableLen.toNat
  index : s.index = toF32 k
  incr : s.incr = f32One
  loaded : ∀ a, a < s.tableLen.toNat → ∃ v, Memory.read s.table a = some v ∧ f32IsFinite v = true

/-- The response is OK with entry `a` of the table, in value. -/
def AnswersEntry (m : Memory) (a : Nat) (r : Response) : Prop :=
  r.status = .ok ∧ f32IsFinite r.rdata = true ∧ ∃ v, Memory.read m a = some v ∧ f32Scaled r.rdata = f32Scaled v

/-- A pull writes the port and the phase only. -/
theorem PlaysUnitSteps.pulled {s : State} {k : Nat} {x : F32} (h : PlaysUnitSteps s k)
    (hx : x = toF32 ((k + 1) % s.tableLen.toNat)) (rest : List HostInput) (r : Option Response) :
    PlaysUnitSteps { s with inputs := rest, index := x, response := r } ((k + 1) % s.tableLen.toNat) :=
  { mode := h.mode
    phaseLt := Nat.mod_lt _ (Nat.zero_lt_of_lt h.phaseLt)
    index := hx
    incr := h.incr
    loaded := h.loaded }

/-- A command's own word at the port runs the command (R60, R63). -/
theorem step_encode {s : State} {i : Instr} {rest : List HostInput} (hwf : i.WellFormed)
    (hin : s.inputs = .command (encode i) :: rest) : step s = exec i { s with inputs := rest } := by
  rw [step_command s _ rest hin, runCommand_of_decode (decode_encode i hwf)]

/-- One pull answers entry k, and the phase moves on to k + 1 mod L: R105 item 4 with the increment 1. -/
theorem step_unit_pull {s : State} {k : Nat} {rest : List HostInput} (h : PlaysUnitSteps s k)
    (hin : s.inputs = .command (encode .getSample) :: rest) :
    ∃ x r, step s = .next { s with inputs := rest, index := x, response := some r } ∧
      x = toF32 ((k + 1) % s.tableLen.toNat) ∧ AnswersEntry s.table k r := by
  have hL := s.tableLen.isLt
  have hk := h.phaseLt
  obtain ⟨t0, hread0, ht0⟩ := h.loaded k hk
  obtain ⟨t1, hread1, ht1⟩ := h.loaded _ (Nat.mod_lt (k + 1) (Nat.zero_lt_of_lt hk))
  have hfin : f32IsFinite s.index = true := h.index ▸ toF32_finite k (by omega)
  have hval : f32Scaled s.index = ((k * f32Unit : Nat) : Int) := h.index ▸ toF32_scaled (by omega)
  have hincr : f32IsFinite s.incr = true := h.incr ▸ f32One_finite
  have hone : f32Scaled s.incr = 1 * (f32Unit : Int) := by rw [h.incr, f32One_scaled, one_mul]
  obtain ⟨x, y, m, hexec, hyfin, hyval, -, -, -, hphase⟩ :=
    integerIncrementReadsExactEntries { s with inputs := rest } k 1 t0 t1 h.mode hk hfin hval hincr hone hread0 hread1
      ht0 ht1
  have hsign : f32Sign s.index = false := h.index ▸ toF32_sign k
  have hx : x = toF32 ((k + 1) % s.tableLen.toNat) := (hphase (by omega)).1 (.inr ⟨hsign, by omega⟩)
  exact ⟨x, ⟨.ok, y⟩, (step_encode rfl hin).trans hexec, hx, rfl, hyfin, t0, hread0, hyval⟩

/-- A run shows its first step's response before the others. -/
theorem observe_succ_of_step {k : Nat} {s t u : State} {seen : List Response} (hstep : step s = .next t)
    (hrun : observe k t = .next (u, seen)) : observe (k + 1) s = .next (u, t.response.toList ++ seen) := by
  simp [observe, hstep, hrun]

/-- n pulls from phase k answer the entries from k on, mod L, and leave the phase k + n mod L. -/
theorem observe_unit_pulls (n : Nat) : ∀ (k : Nat) (s : State) (rest : List HostInput),
    PlaysUnitSteps s k → s.inputs = List.replicate n (.command (encode .getSample)) ++ rest →
    ∃ (t : State) (seen : List Response),
      observe n s = .next (t, seen) ∧ t.index = toF32 ((k + n) % s.tableLen.toNat) ∧ t.inputs = rest ∧
        seen.length = n ∧
        ∀ (i : Nat) (h : i < seen.length), AnswersEntry s.table ((k + i) % s.tableLen.toNat) seen[i] := by
  induction n with
  | zero =>
    intro k s rest h hin
    exact ⟨s, [], rfl, by rw [Nat.add_zero, Nat.mod_eq_of_lt h.phaseLt, h.index], hin, rfl, by simp⟩
  | succ n ih =>
    intro k s rest h hin
    obtain ⟨x, r, hstep, hx, hr⟩ := step_unit_pull h hin
    obtain ⟨t, seen, hrun, hindex, htin, hlen, hseen⟩ := ih _ _ rest (h.pulled hx _ (some r)) rfl
    have hshift (i : Nat) : ((k + 1) % s.tableLen.toNat + i) % s.tableLen.toNat = (k + (i + 1)) % s.tableLen.toNat := by
      rw [Nat.mod_add_mod, Nat.add_assoc, Nat.add_comm 1]
    refine ⟨t, r :: seen, observe_succ_of_step hstep hrun, hindex.trans (congrArg toF32 (hshift n)), htin,
      congrArg Nat.succ hlen, fun i hi => ?_⟩
    cases i with
    | zero => simpa [Nat.mod_eq_of_lt h.phaseLt] using hr
    | succ i => exact hshift i ▸ hseen i (Nat.lt_of_succ_lt_succ hi)

/-- Settles O47: the run of pulls from phase 0, which is `+0.0`. -/
theorem unitIncrementPlaysTheTablePeriodically : Obligations.UnitIncrementPlaysTheTablePeriodically := by
  intro n s rest hs hmode hindex hincr hloaded hin
  have hplays : PlaysUnitSteps s 0 :=
    { mode := hmode
      phaseLt := len_pos_of_ne _ (hs.active hmode).lenPos
      index := hindex.trans (by decide)
      incr := hincr
      loaded := fun a ha => exists_finite_entry_of_written hs.table (hloaded a ha) }
  rw [AsmLine.expand, List.map_replicate] at hin
  simpa only [Nat.zero_add, AnswersEntry] using observe_unit_pulls n 0 s rest hplays hin

end Sys2Proof.Proofs
end

section
/-! Proofs of the statements about status codes and failed commands (R141, R143), and the waiting block (R152). -/

namespace Sys2Proof.Proofs

open Sys2Proof Sys2Proof.Machine

/-! ### The waiting block (R152) -/

/-- Settles O4: the branch of the port with no input. -/
theorem waitingBlockHoldsState : Obligations.WaitingBlockHoldsState := by
  intro s hin
  simp only [step, acceptInput, hin, State.wait, State.setResponse]

/-! ### A command at the port (R46, R63) -/

/-- Everything a command word at the port can do: it decodes and its command runs, or it answers ERR_ILLEGAL and
changes nothing. -/
theorem step_command_next {s t : State} {w : CommandWord} {rest : List HostInput}
    (hin : s.inputs = .command w :: rest) (h : step s = .next t) :
    (∃ i, decode w = .ok i ∧ exec i { s with inputs := rest } = .next t) ∨
      t = { s with inputs := rest, response := some ⟨.errIllegal, 0#32⟩ } := by
  cases hdec : decode w with
  | ok i =>
    rw [step_command s w rest hin, runCommand_of_decode hdec] at h
    exact .inl ⟨i, rfl, h⟩
  | error e =>
    rw [step_of_decode_error hin hdec] at h
    exact .inr (Host.Outcome.next.inj h).symm

/-! ### Failed commands (R143) -/

/-- The effects that write an element answer OK, but for the pull at a negative phase, which sets S.FAULT alone. -/
theorem effect_of_failed {i : Instr} {s t : State} {r : Response} (h : Effect s i t) (hr : t.response = some r)
    (hfail : r.status ≠ .ok) :
    t = { s with response := some r, fault := s.fault || decide (r.status = .errPhase) } := by
  cases h with
  | answered _ r' hne =>
    obtain rfl : r' = r := Option.some.inj hr
    simp [hne]
  | phaseRefused =>
    obtain rfl := Option.some.inj hr
    simp
  | stored | constructed | released | retuned | advanced =>
    obtain rfl := Option.some.inj hr
    exact absurd rfl hfail

/-- Settles O12: a word that is no command changes nothing, and a command that runs has one of the effects. -/
theorem failedCommandChangesNothing : Obligations.FailedCommandChangesNothing := by
  intro s t w rest r hin h hr hfail
  obtain ⟨i, -, hexec⟩ | rfl := step_command_next hin h
  · exact effect_of_failed (exec_effect hexec) hr hfail
  · obtain rfl := Option.some.inj hr
    simp

/-! ### The statuses by opcode (R65, R141) -/

/-- Decoding comes before every other check (R142), so every opcode can answer ERR_ILLEGAL. -/
theorem errIllegal_mem_possibleStatuses (opc : Nat) : .errIllegal ∈ possibleStatuses opc := by
  unfold possibleStatuses
  split <;> decide

/-- Settles O13: a word that is no command answers ERR_ILLEGAL, and a word that decodes is its command's own word. -/
theorem statusByCommand : Obligations.StatusByCommand := by
  intro s t w rest hin h
  obtain ⟨i, hdec, hexec⟩ | rfl := step_command_next hin h
  · obtain ⟨-, rfl⟩ := encode_of_decode hdec
    exact exec_answersOneOf_possibleStatuses i _ t hexec
  · exact ⟨_, rfl, errIllegal_mem_possibleStatuses _⟩

end Sys2Proof.Proofs
end

section
/-! Proofs of the statements about hardware reset (R160, R161), and about a frequency change between two pulls
(R163). -/

namespace Sys2Proof.Proofs

open Sys2Proof Sys2Proof.Machine

/-! ### A frequency change between two pulls (R163) -/

/-- A SET_FREQ that answers OK writes the increment, beside its response, and nothing else (R101). -/
theorem exec_setFreq_of_answers_ok {s t : State} {f : F32} {d : Word} (h : exec (.setFreq f) s = .next t)
    (hok : t.response = some ⟨.ok, d⟩) :
    ∃ q, t = { s with incr := q, response := some ⟨.ok, 0#32⟩ } := by
  obtain ⟨st, hst, rfl⟩ | ⟨-, -, -, rfl⟩ := execSetFreq_next f s t h
  · exact absurd (congrArg Response.status (Option.some.inj hok)) hst
  · exact ⟨_, rfl⟩

/-- A pull that answers OK takes the branch with the sample (R120). -/
theorem exec_getSample_of_answers_ok {s u : State} {y : F32} (h : exec .getSample s = .next u)
    (hok : u.response = some ⟨.ok, y⟩) :
    s.mode = .active ∧ f32Lt s.index 0x00000000#32 = false ∧ lerp s s.index = .ok y := by
  obtain ⟨-, rfl⟩ | ⟨-, -, rfl⟩ | ⟨hmode, hneg, z, hlerp, rfl⟩ := execGetSample_next s u h
  · simp at hok
  · simp at hok
  · obtain rfl : z = y := congrArg Response.rdata (Option.some.inj hok)
    exact ⟨hmode, hneg, hlerp⟩

/-- The interpolator reads neither the increment nor the response wires (R110). -/
theorem lerp_congr_incr (s : State) (q : F32) (r : Option Response) (x : F32) :
    lerp { s with incr := q, response := r } x = lerp s x := rfl

/-- Settles O48: the sample is interpolated at the phase, which the new increment does not touch; only the advance reads
the increment. -/
theorem frequencyChangeShowsAfterTheNextPull : Obligations.FrequencyChangeShowsAfterTheNextPull := by
  intro s t u f hset hsetOk hpull ⟨y, hy⟩
  obtain ⟨q, rfl⟩ := exec_setFreq_of_answers_ok hset hsetOk
  obtain ⟨hmode, hneg, hlerp⟩ := exec_getSample_of_answers_ok hpull hy
  have hlerp' := (lerp_congr_incr s q (some ⟨.ok, 0#32⟩) s.index).trans hlerp
  rw [hy]
  exact exec_getSample_of_lerp_ok (s := { s with incr := q, response := some ⟨.ok, 0#32⟩ }) hmode hneg hlerp'

/-! ### Hardware reset (R160, R161) -/

/-- A table with no entry listed has every written bit clear (R31). -/
theorem written_nil (a : Nat) : Memory.written [] a = false := rfl

/-- Settles O1: each element of `State.reset`, and its empty table. -/
theorem resetStateHoldsResetValues : Obligations.ResetStateHoldsResetValues :=
  ⟨rfl, rfl, rfl, rfl, rfl, rfl, written_nil⟩

/-- A reset at the port resets the block, whether or not it aborts a command. -/
theorem step_reset {s : State} {w : CommandWord} {rest : List HostInput}
    (hin : s.inputs = .reset :: rest ∨ s.inputs = .resetDuring w :: rest) :
    step s = .next (s.setInputs rest).hardwareReset := by
  obtain hin | hin := hin
  · simp only [step, acceptInput, hin]
  · simp only [step, acceptInput, hin]

/-- Settles O2: both inputs take the block to `hardwareReset`, whose elements are the reset values. -/
theorem hardwareResetFromEveryState : Obligations.HardwareResetFromEveryState := by
  intro s w rest hin
  refine ⟨(s.setInputs rest).hardwareReset, step_reset hin, ?_⟩
  simp [written_nil]

end Sys2Proof.Proofs
end
